-- ==== Sys2Proof/Word.lean ====
section
/-! DEFINITION. The word types of AC24: command words, node addresses, bytes, weights. -/

namespace Sys2Proof

/-- A byte of the streams `IN` and `OUT` (spec/00_scope.md section 5, spec/20_memory.md R66). -/
abbrev Byte := BitVec 8

/-- A command word `CW`, 32 bits, presented whole: it has no byte order (spec/30_encoding.md R90). -/
abbrev CommandWord := BitVec 32

/-- A node address, `NAW = 20` bits (spec/00_scope.md R6, spec/20_memory.md R61). -/
abbrev NodeAddr := BitVec 20

/-- The weight number type `NUM` at its reference value `EXACT`: exact rationals
(spec/00_scope.md R5). DESIGN CHOICE of the parameter's value, log entry 1. -/
abbrev Weight := ℚ

end Sys2Proof
end

