-- ==== Sys2Proof/Syntax.lean ====
section
/-! DEFINITION. The instructions: one constructor per row of spec/opcode_table.json, that is the nine commands of
spec/30_encoding.md R93. -/

namespace Sys2Proof

/-- A command of the block (spec/30_encoding.md R93). -/
inductive Instr where
  /-- `CINIT`, format Z (spec/42_system.md R150). -/
  | cinit
  /-- `SETNB n`, format N: the node budget, a count (spec/42_system.md R151). -/
  | setnb (n : Nat)
  /-- `FLUSH`, format Z (spec/40_predictor.md R110). -/
  | flush
  /-- `PREDICT`, format Z (spec/40_predictor.md R111). -/
  | predict
  /-- `UPDATE`, format Z (spec/40_predictor.md R112). -/
  | update
  /-- `ENCBIT b`, format B: the plain bit (spec/41_coder.md R132). -/
  | encbit (b : Bool)
  /-- `DECBIT`, format Z (spec/41_coder.md R133). -/
  | decbit
  /-- `FINISH`, format Z (spec/41_coder.md R134). -/
  | finish
  /-- `SEED`, format Z (spec/41_coder.md R135). -/
  | seed
  deriving DecidableEq, Repr

end Sys2Proof
end

