-- ==== Sys2Proof/WellFormed.lean ====
section
/-! DEFINITION. Which terms of `Instr` a command word can hold. -/

namespace Sys2Proof

/-- `SETNB`'s operand is the 20-bit field `n = CW[19:0]` (spec/30_encoding.md R91, R92); every other operand fits its
field by its type. A budget of 0 or above 983040 is well formed: it is rejected at execution (R94). -/
def Instr.wellFormed : Instr → Bool
  | .setnb n => n < 2 ^ 20
  | .cinit => true
  | .flush => true
  | .predict => true
  | .update => true
  | .encbit _ => true
  | .decbit => true
  | .finish => true
  | .seed => true

end Sys2Proof
end

