-- ==== Sys2Proof/Decode.lean ====
section
/-! DEFINITION. From command words to instructions and back (spec/30_encoding.md). Decoding is total; a word that is
no instruction is rejected by name. -/

namespace Sys2Proof

/-- Why a command word is illegal (spec/30_encoding.md R94). Both raise `Fault(1)`. -/
inductive IllegalWord where
  /-- `OPC` is not one of the nine values of R93. -/
  | unassignedOpcode (opc : BitVec 8)
  /-- A must-be-zero bit of the format is 1. -/
  | reservedBits (opc : BitVec 8)
  deriving DecidableEq, Repr

/-- `OPC = CW[31:24]` (R90). -/
def opcOf (w : CommandWord) : BitVec 8 := w.extractLsb' 24 8

/-- `ARG = CW[23:0]` (R90). -/
def argOf (w : CommandWord) : BitVec 24 := w.extractLsb' 0 24

/-- Format Z: `ARG` must be 0 (R91). -/
def formatZ (w : CommandWord) (i : Instr) : Except IllegalWord Instr :=
  if argOf w = 0 then .ok i else .error (.reservedBits (opcOf w))

/-- Format B: bits 23:1 must be 0, the operand is `b = CW[0]` (R91, R92). -/
def formatB (w : CommandWord) (i : Bool → Instr) : Except IllegalWord Instr :=
  if w.extractLsb' 1 23 = 0 then .ok (i (w.getLsbD 0)) else .error (.reservedBits (opcOf w))

/-- Format N: bits 23:20 must be 0, the operand is `n = CW[19:0]`, unsigned (R91, R92). -/
def formatN (w : CommandWord) (i : Nat → Instr) : Except IllegalWord Instr :=
  if w.extractLsb' 20 4 = 0 then .ok (i (w.extractLsb' 0 20).toNat) else .error (.reservedBits (opcOf w))

/-- The instruction a command word holds: `OPC` selects the command and its format, then the format's must-be-zero
bits are checked (R93, R94). -/
def decode (w : CommandWord) : Except IllegalWord Instr :=
  if opcOf w = 0x01 then formatZ w .cinit
  else if opcOf w = 0x02 then formatN w .setnb
  else if opcOf w = 0x10 then formatZ w .flush
  else if opcOf w = 0x11 then formatZ w .predict
  else if opcOf w = 0x12 then formatZ w .update
  else if opcOf w = 0x20 then formatB w .encbit
  else if opcOf w = 0x21 then formatZ w .decbit
  else if opcOf w = 0x22 then formatZ w .finish
  else if opcOf w = 0x23 then formatZ w .seed
  else .error (.unassignedOpcode (opcOf w))

/-- The command word of an instruction, as the table of R93 writes it. -/
def encode : Instr → CommandWord
  | .cinit => 0x01000000
  | .setnb n => BitVec.ofNat 32 (0x02000000 + n % 2 ^ 20)
  | .flush => 0x10000000
  | .predict => 0x11000000
  | .update => 0x12000000
  | .encbit b => BitVec.ofNat 32 (0x20000000 + b.toNat)
  | .decbit => 0x21000000
  | .finish => 0x22000000
  | .seed => 0x23000000

/-- The word whose low `nbits` bits are those of `w` and whose other bits are 0: commands have one length, 32 bits,
and no byte order (R90), so the table's numbering is the word's own. -/
def tableWord (nbits w : Nat) : CommandWord := BitVec.ofNat 32 (w % 2 ^ nbits)

/-- What the decoder reads from the instruction whose bits are `w`, as spec/opcode_table.json numbers them. -/
def decodeTableWord (nbits w : Nat) : Option Instr :=
  match decode (tableWord nbits w) with
  | .ok i => some i
  | .error _ => none

end Sys2Proof
end

