-- ==== Sys2Proof/Config.lean ====
section
/-! DEFINITION. What the hardware fixes once: the constants of spec/00_scope.md R1 to R4 and of the node address
map, the parameters the spec calls OPEN, and the free values. -/

namespace Sys2Proof.Config

/-- `TOP = 2^24`, the window ceiling and the largest value of `MAX` (R1). -/
def top : Nat := 0x1000000

/-- `FLOOR = 256`: renormalization runs while the width is below it (R1). -/
def floor : Nat := 256

/-- `SHIFT = 8`, the bits of one renormalization step (R1). -/
def shift : Nat := 8

/-- `MASK = 0xFFFF00`, the shift mask (R1). -/
def mask : Nat := 0xFFFF00

/-- `SENT_BYTES = 3`, the bytes of the sentinel and of the seed (R1). -/
def sentBytes : Nat := 3

/-- `NCTX = 256`, the contexts of the base grid (R2). -/
def nctx : Nat := 256

/-- The decision nodes of one context: 255, a tree of depth `DEPTH = 8` (R2). -/
def nodesPerContext : Nat := 255

/-- `NODE_BUDGET` after reset, 524269 (R3). -/
def nodeBudgetReset : Nat := 524269

/-- `NB_MAX = 2^20 - 2^16 = 983040` (R3). -/
def nbMax : Nat := 983040

/-- `POOL_BASE = 0x10000`, the first clone-pool address (spec/20_memory.md R61). -/
def poolBase : Nat := 0x10000

/-- The first value above the node addresses, `2^20` (spec/20_memory.md R61). -/
def nodeSpace : Nat := 0x100000

/-- The OPEN parameters `FLUSH_INTERVAL` and `FLUSH_GROWTH` of the host sequences (R4); they are not hardware
state, so every sequence takes them as an argument. R4 gives them no range: any naturals are taken, and an interval of
0 means that no check is made (DESIGN CHOICE, log entry 21). -/
structure Cadence where
  interval : Nat
  growth : Nat
  deriving DecidableEq, Repr

/-- The reference values of R4: 256 and 256. -/
def Cadence.reference : Cadence := ⟨256, 256⟩

/-- FREE VALUE: what `w0 / (w0 + w1)` gives when `w0 + w1 = 0`, applied to `w0`. The spec calls the case unreachable
under `NUM = EXACT` and states no result (spec/93_implementation_defined.md U3). DESIGN CHOICE, log entry 5; safe,
since nothing can be proved of its value. -/
opaque quotientByZero : Weight → Weight

end Sys2Proof.Config
end

