-- ==== Sys2Proof/Machine/Numerics.lean ====
section
/-! DEFINITION. The weight operations, all of them and no others (spec/00_scope.md R5, spec/40_predictor.md R116), at
`NUM = EXACT`: a model of another number format replaces the bodies of this file. -/

namespace Sys2Proof.Machine.Num

/-- `W_INIT = 0.2`, exactly `1/5` (spec/00_scope.md R2). -/
def wInit : Weight := 1 / 5

/-- `THRESHOLD = 2.0` (spec/00_scope.md R2). -/
def threshold : Weight := 2

/-- `BIGTHRES = 2.0` (spec/00_scope.md R2). -/
def bigThres : Weight := 2

/-- `w0 + w1`. -/
def total (w0 w1 : Weight) : Weight := w0 + w1

/-- `w0 / (w0 + w1)`, the probability of a 0 bit (R111); a free value where the sum is 0 (log entry 5). -/
def probability (w0 w1 : Weight) : Weight :=
  if total w0 w1 = 0 then Config.quotientByZero w0 else w0 / total w0 w1

/-- The cloning rule: `used >= THRESHOLD and total >= BIGTHRES + used`, both non-strict (R112). -/
def cloneWanted (used tot : Weight) : Bool := threshold ≤ used && bigThres + used ≤ tot

/-- `r = used / total` (R112); the cloning rule makes `total` at least 4. -/
def ratio (used tot : Weight) : Weight := used / tot

/-- `tw * r`, the part of a target's weight that moves to the new node (R112). -/
def portion (tw r : Weight) : Weight := tw * r

/-- `tw - n`, what stays with the target (R112). -/
def remainder (tw n : Weight) : Weight := tw - n

/-- `w + 1` (R112). -/
def increment (w : Weight) : Weight := w + 1

/-- `floor(range * p)` (spec/41_coder.md R130), for `0 <= p`. -/
def scale (range : Nat) (p : Weight) : Nat := ⌊(range : Weight) * p⌋.toNat

end Sys2Proof.Machine.Num
end

