-- ==== Sys2Proof/Machine/State.lean ====
section
/-! DEFINITION. The state of the block as plain data, the reasons a step can stop, and the state after reset
(spec/10_state.md). -/

namespace Sys2Proof.Machine

/-- `CSTATE`, the coder state (R26). Its values 6 and 7 are never taken. -/
inductive CState where
  | ready
  | enc
  | dec
  | fin
  | ended
  | seederr
  deriving DecidableEq, Repr

/-- `FCODE`, the sticky fault code (R28, spec/60_exceptions.md R181). Its values 8 to 15 are never written. -/
inductive FaultCode where
  /-- 0: not faulted. -/
  | clear
  /-- 1, `ILLEGAL_COMMAND`. -/
  | illegalCommand
  /-- 2, `GRAPH_NOT_VALID`. -/
  | graphNotValid
  /-- 3, `P_NOT_VALID`. -/
  | pNotValid
  /-- 4, `BIT_NOT_VALID`. -/
  | bitNotValid
  /-- 5, `BAD_CSTATE`. -/
  | badCState
  /-- 6, `BAD_NB`. -/
  | badNb
  /-- 7, `NODE_ADDR`. -/
  | nodeAddr
  deriving DecidableEq, Repr

/-- A node record of the node weight register file (R34). -/
structure Node where
  w0 : Weight
  w1 : Weight
  e0 : NodeAddr
  e1 : NodeAddr
  deriving DecidableEq, Repr

/-- `NF`, the node weight register file: node records by address, in one canonical form (`NodeFile.wf` in
Machine/Ops.lean). The unit of the node space is the record, not the byte (spec/20_memory.md R60, log entry 20). -/
abbrev NodeFile := List (Nat × Node)

/-- What the host can do to the block between commands (spec/00_scope.md section 8). -/
inductive HostAction where
  /-- Present a command word (R36). -/
  | command (w : CommandWord)
  /-- Read a host register by number (spec/42_system.md R152). -/
  | readReg (k : Nat)
  /-- Apply reset (spec/70_reset_and_hazards.md R200). -/
  | reset
  /-- Fix the byte source: `IN <- bytes`, `IPOS <- 0` (R33, spec/43_sequences.md R161). -/
  | supply (bytes : List Byte)
  deriving DecidableEq, Repr

/-- The state of the block and of its ports. Log entries 2, 3, 6, 7, 13 and 20 say what the spec leaves to the
model. -/
structure State where
  /-- `MIN`, lower bound of the interval (R20). -/
  min : BitVec 24
  /-- `MAX`, exclusive upper bound of the interval (R21). -/
  max : BitVec 25
  /-- `VAL`, the decoder's running value (R22). -/
  val : BitVec 24
  /-- `BIT`, the plain bit most recently coded (R24). -/
  bit : Bool
  /-- `BV`, `BIT` is valid (R24). -/
  bv : Bool
  /-- `P`, the probability accumulator (R23). -/
  p : Weight
  /-- `PV`, `P` is valid (R23, R27). -/
  pv : Bool
  /-- `GV`, the state graph is valid (R27). -/
  gv : Bool
  /-- `CSTATE` (R26). -/
  cstate : CState
  /-- `FCODE` (R28). -/
  fcode : FaultCode
  /-- `RCNT`, renormalization steps (R25). -/
  rcnt : BitVec 32
  /-- `CN`, the current node (R30). -/
  cn : NodeAddr
  /-- `CUR`, the clone pool's cursor (R32). -/
  cur : BitVec 20
  /-- `NB`, the node budget (R31). -/
  nb : BitVec 20
  /-- `NF`, the node weight register file (R34). -/
  nf : NodeFile
  /-- `IN`, the byte source (R33). -/
  input : List Byte
  /-- `IPOS`, the read position of `IN` (R33). -/
  ipos : Nat
  /-- `OUT`, the byte sink, oldest byte first (R33). -/
  output : List Byte
  /-- The MODEL's own: host actions presented and not yet taken, the next one first (log entry 6). -/
  pending : List HostAction
  /-- The MODEL's own: the words the host has read, oldest first (log entry 7). -/
  replies : List (BitVec 32)
  deriving DecidableEq, Repr

/-- The reasons a step stops with a fault: NONE. A fault of the spec writes `FCODE` and the block goes on
(spec/60_exceptions.md R180, R183), so it is a next state (log entry 9); safe, no behaviour is lost. -/
inductive Fault where
  deriving DecidableEq, Repr

/-- The reasons a step is refused. -/
inductive Refusal where
  /-- Raised by `exec` alone, in the arm of an instruction that has no meaning; no arm raises it. Safe. -/
  | notModelled (mnemonic : String)
  /-- Raised by a host read of register number 8 or above, which the spec does not define: "a model refuses the
  read" (spec/42_system.md R152, spec/93_implementation_defined.md U8). Safe. -/
  | reservedRegister (k : Nat)
  deriving DecidableEq, Repr

/-- The machine right after reset (R39, spec/70_reset_and_hazards.md R200). `P`, the contents of `NF`, and the host's
`IN`, `IPOS`, `OUT` have no reset value in the spec: log entries 2, 3 and 13. -/
def State.reset : State where
  min := 0
  max := 0x1000000
  val := 0
  bit := false
  bv := false
  p := 0
  pv := false
  gv := false
  cstate := .ready
  fcode := .clear
  rcnt := 0
  cn := 0x00001
  cur := 0
  nb := 524269
  nf := []
  input := []
  ipos := 0
  output := []
  pending := []
  replies := []

end Sys2Proof.Machine
end

