-- ==== Sys2Proof/Machine/Ops.lean ====
section
/-! DEFINITION. The named operations over registers, the node file and the streams, the interval arithmetic, and
taking a fault and recovering from it (spec/20_memory.md, spec/40_predictor.md R110, spec/41_coder.md R130, R131,
spec/60_exceptions.md R180 to R184). -/

namespace Sys2Proof.Machine

/-! Register codes. -/

/-- The 3-bit value of `CSTATE` (spec/10_state.md R26). -/
def CState.code : CState → BitVec 3
  | .ready => 0
  | .enc => 1
  | .dec => 2
  | .fin => 3
  | .ended => 4
  | .seederr => 5

/-- The 4-bit value of `FCODE` (spec/60_exceptions.md R181). -/
def FaultCode.code : FaultCode → BitVec 4
  | .clear => 0
  | .illegalCommand => 1
  | .graphNotValid => 2
  | .pNotValid => 3
  | .bitNotValid => 4
  | .badCState => 5
  | .badNb => 6
  | .nodeAddr => 7

/-! Node addresses (spec/20_memory.md R61, R62). -/

/-- The address holds a base-grid node: below `POOL_BASE`, heap index not 0 (R61). -/
def isBase (a : Nat) : Bool := a < Config.poolBase && a % 256 != 0

/-- `Implemented(a)` for node budget `nb` (R61). -/
def implemented (nb a : Nat) : Bool :=
  isBase a || (Config.poolBase ≤ a && a < Config.poolBase + nb && a < Config.nodeSpace)

/-- `Root(c) = c * 256 + 1` (R62). -/
def root (c : Nat) : Nat := c * 256 + 1

/-- `BaseEdge(a, b)` (R62): to the child in the same context, or from the last level to the root of the context of
the byte just completed. -/
def baseEdge (a : Nat) (b : Bool) : Nat :=
  let c := a / 256
  let h := a % 256
  if h ≤ 127 then c * 256 + (2 * h + b.toNat) else root ((2 * h + b.toNat) % 256)

/-! The node file (spec/20_memory.md R65). -/

/-- What `FLUSH` writes at base-grid address `a` (spec/40_predictor.md R110). -/
def flushedNode (a : Nat) : Node where
  w0 := Num.wInit
  w1 := Num.wInit
  e0 := BitVec.ofNat 20 (baseEdge a false)
  e1 := BitVec.ofNat 20 (baseEdge a true)

/-- What an address that is not listed reads as: a base-grid address as `FLUSH` leaves it, any other as a node of
zeros. DESIGN CHOICE for contents the spec leaves open (spec/10_state.md R38), log entry 3; unsafe, unobservable. -/
def unlistedNode (a : Nat) : Node := if isBase a then flushedNode a else ⟨0, 0, 0, 0⟩

/-- The node at address `a`. -/
def nodeAt : NodeFile → Nat → Node
  | [], a => unlistedNode a
  | (b, m) :: rest, a => if a = b then m else nodeAt rest a

/-- `NF[a] <- m`: addresses stay strictly rising, and a node equal to what an unlisted address reads as is not
listed. -/
def putNode (a : Nat) (m : Node) : NodeFile → NodeFile
  | [] => if m = unlistedNode a then [] else [(a, m)]
  | (b, k) :: rest =>
    if a < b then (if m = unlistedNode a then (b, k) :: rest else (a, m) :: (b, k) :: rest)
    else if a = b then (if m = unlistedNode a then rest else (a, m) :: rest)
    else (b, k) :: putNode a m rest

/-- Every address of the list is above `lo`, strictly rising, inside the node space, and lists a node that differs
from what an unlisted address reads as. -/
def canonicalFrom (lo : Option Nat) : NodeFile → Bool
  | [] => true
  | (b, m) :: rest =>
    (match lo with
      | none => true
      | some a => a < b) && b < Config.nodeSpace && m != unlistedNode b && canonicalFrom (some b) rest

/-- The canonical form of the node file: equal contents are equal lists. -/
def NodeFile.wf (nf : NodeFile) : Bool := canonicalFrom none nf

/-- The weight `w[b]` of a node (spec/00_scope.md section 6). -/
def Node.weight (m : Node) (b : Bool) : Weight := if b then m.w1 else m.w0

/-- The edge `e[b]` of a node (spec/00_scope.md section 6). -/
def Node.edge (m : Node) (b : Bool) : NodeAddr := if b then m.e1 else m.e0

/-- Write the field `w[b]`. -/
def Node.setWeight (m : Node) (b : Bool) (w : Weight) : Node :=
  if b then { m with w1 := w } else { m with w0 := w }

/-- Write the field `e[b]`. -/
def Node.setEdge (m : Node) (b : Bool) (a : NodeAddr) : Node :=
  if b then { m with e1 := a } else { m with e0 := a }

/-- The node `NF[a]` of a state. -/
def State.node (s : State) (a : NodeAddr) : Node := nodeAt s.nf a.toNat

/-- `NF[a] <- m`. -/
def State.setNode (s : State) (a : NodeAddr) (m : Node) : State := { s with nf := putNode a.toNat m s.nf }

/-- `Implemented(a)` under the state's node budget. -/
def State.implements (s : State) (a : Nat) : Bool := implemented s.nb.toNat a

/-- `FlushGraph()` (spec/40_predictor.md R110). Writing every base-grid node with what an unlisted base address reads
as leaves exactly the other addresses listed (log entry 11); pool slots keep their contents. -/
def flushGraph (s : State) : State :=
  { s with
    nf := s.nf.filter fun e => !isBase e.1
    cur := 0
    cn := BitVec.ofNat 20 (root 0) }

/-! The streams (spec/20_memory.md R66). -/

/-- `InByte()`: the next byte of `IN` and the state past it, or none and no change. -/
def inByte (s : State) : Option (Byte × State) :=
  match s.input[s.ipos]? with
  | none => none
  | some v => some (v, { s with ipos := s.ipos + 1 })

/-- `OutByte(v)`. -/
def outByte (v : Byte) (s : State) : State := { s with output := s.output ++ [v] }

/-! The interval (spec/41_coder.md). -/

/-- `MAX - MIN`. -/
def State.width (s : State) : Nat := s.max.toNat - s.min.toNat

/-- `Mid(lo, hi, p)`, the two clamp tests in sequence (R130). -/
def mid (lo hi : Nat) (p : Weight) : Nat :=
  let raw := lo + Num.scale (hi - lo - 1) p
  let low := if raw = lo then raw + 1 else raw
  if low + 1 = hi then low - 1 else low

/-- `(v << 8) & 0xFFFF00` (R131, R133). -/
def shiftByte (v : Nat) : Nat := (v <<< Config.shift) &&& Config.mask

/-- `Shift()` (R131). -/
def shiftInterval (s : State) : State :=
  let lo := shiftByte s.min.toNat
  let hi := shiftByte s.max.toNat
  { s with
    min := BitVec.ofNat 24 lo
    max := BitVec.ofNat 25 (if lo ≥ hi then Config.top else hi) }

/-- Keep the part of the interval that belongs to bit `b`: the upper part for 1, the lower for 0 (R132). -/
def narrow (b : Bool) (m : Nat) (s : State) : State :=
  { s with
    min := if b then BitVec.ofNat 24 m else s.min
    max := if b then s.max else BitVec.ofNat 25 m }

/-- The correction that opens a renormalization step: `MAX <- MAX - 1` when the bit is 1 (R131). -/
def correct (b : Bool) (s : State) : State :=
  { s with max := if b then BitVec.ofNat 25 (s.max.toNat - 1) else s.max }

/-- `RCNT <- (RCNT + 1) mod 2^32` (R132, R138). -/
def countStep (s : State) : State := { s with rcnt := s.rcnt + 1 }

/-- `MIN[23:16]`, `MIN[15:8]`, `MIN[7:0]`, the bytes of `MIN`, most significant first (spec/20_memory.md R67). -/
def minBytes (s : State) : List Byte :=
  [s.min.extractLsb' 16 8, s.min.extractLsb' 8 8, s.min.extractLsb' 0 8]

/-- The body of the encoder's renormalization loop: correct, emit `MIN[23:16]`, count, shift (R132). -/
def emitStep (b : Bool) (s : State) : State :=
  let s := correct b s
  shiftInterval (countStep (outByte (s.min.extractLsb' 16 8) s))

/-- The encoder's renormalization. After `Shift()` the width is at least 256 whatever it was, so the `while` of R132
runs its body at most once (R136; log entry 10). -/
def renormEncode (b : Bool) (s : State) : State := if s.width < Config.floor then emitStep b s else s

/-- `VAL <- ((VAL << 8) & 0xFFFF00) | v` (R133). -/
def foldByte (v : Byte) (s : State) : State :=
  { s with val := BitVec.ofNat 24 (shiftByte s.val.toNat ||| v.toNat) }

/-- The body of the decoder's renormalization loop: the fetch stands where the encoder emits; with no next byte the
stream has ended, the correction stays, and nothing else changes (R133). -/
def fetchStep (b : Bool) (s : State) : State :=
  let s := correct b s
  match inByte s with
  | none => { s with cstate := .ended }
  | some (v, s) => shiftInterval (foldByte v (countStep s))

/-- The decoder's renormalization; the `while` of R133 runs its body at most once (R136; log entry 10). -/
def renormDecode (b : Bool) (s : State) : State := if s.width < Config.floor then fetchStep b s else s

/-- Hand the coded bit to `UPDATE` and use up the probability: `BIT <- b`, `BV <- 1`, `PV <- 0` (R132, R133). -/
def latchBit (b : Bool) (s : State) : State := { s with bit := b, bv := true, pv := false }

/-! Taking a fault, and recovering from it. -/

/-- `raise Fault(code)`: `FCODE <- code` and no other change; nothing is saved and no handler is entered
(spec/60_exceptions.md R180, R183). -/
def raiseFault (c : FaultCode) (s : State) : State := { s with fcode := c }

/-- What every command does first: while `FCODE != 0` it is ignored (spec/60_exceptions.md R180, R182 step 1). -/
def unlessFaulted (s : State) (body : State → State) : State :=
  if s.fcode = .clear then body s else s

/-- Reset, the one way out of a fault (spec/60_exceptions.md R184, spec/70_reset_and_hazards.md R200): every register
to its reset value; `P` is not written (spec/10_state.md R23), `NF` is not initialised, and `IN`, `IPOS`, `OUT` and
the host's own queues are not changed (log entry 4). -/
def applyReset (s : State) : State :=
  { State.reset with
    p := s.p
    nf := s.nf
    input := s.input
    ipos := s.ipos
    output := s.output
    pending := s.pending
    replies := s.replies }

end Sys2Proof.Machine
end

