-- ==== Sys2Proof/Machine/Coder.lean ====
section
/-! DEFINITION. The coder commands `ENCBIT`, `DECBIT`, `FINISH` and `SEED` (spec/41_coder.md). -/

namespace Sys2Proof.Machine

/-- `CSTATE` is `READY` or `ENC`: an encoder command may run (R132, R134). -/
def mayEncode (s : State) : Bool := s.cstate = .ready || s.cstate = .enc

/-- The split point `Mid(MIN, MAX, P)` of a state. -/
def splitPoint (s : State) : Nat := mid s.min.toNat s.max.toNat s.p

/-- `ENCBIT b` (R132). -/
def execEncbit (b : Bool) (s : State) : Host.Outcome State Fault Refusal :=
  .next <| unlessFaulted s fun s =>
    if !mayEncode s then raiseFault .badCState s
    else if !s.pv then raiseFault .pNotValid s
    else { latchBit b (renormEncode b (narrow b (splitPoint s) s)) with cstate := .enc }

/-- The bit that `DECBIT` decodes: 1 exactly when `VAL >= Mid(MIN, MAX, P)` (R133). -/
def decodedBit (s : State) : Bool := splitPoint s ≤ s.val.toNat

/-- `DECBIT` (R133). -/
def execDecbit (s : State) : Host.Outcome State Fault Refusal :=
  .next <| unlessFaulted s fun s =>
    if s.cstate ≠ .dec then raiseFault .badCState s
    else if !s.pv then raiseFault .pNotValid s
    else
      let b := decodedBit s
      renormDecode b (latchBit b (narrow b (splitPoint s) s))

/-- `FINISH` (R134): `MIN <- MAX - 1` and its three bytes, most significant first. -/
def execFinish (s : State) : Host.Outcome State Fault Refusal :=
  .next <| unlessFaulted s fun s =>
    if !mayEncode s then raiseFault .badCState s
    else
      let s := { s with min := BitVec.ofNat 24 (s.max.toNat - 1) }
      { s with output := s.output ++ minBytes s, cstate := .fin }

/-- `SEED` (R135): `VAL` from the next three bytes, first byte most significant, or `SEEDERR` with what is left of
`IN` consumed. -/
def execSeed (s : State) : Host.Outcome State Fault Refusal :=
  .next <| unlessFaulted s fun s =>
    if s.cstate ≠ .ready then raiseFault .badCState s
    else
      match s.input.drop s.ipos with
      | b0 :: b1 :: b2 :: _ =>
        { s with
          val := BitVec.ofNat 24 (b0.toNat * 65536 + b1.toNat * 256 + b2.toNat)
          ipos := s.ipos + Config.sentBytes
          cstate := .dec }
      | _ => { s with ipos := s.input.length, cstate := .seederr }

end Sys2Proof.Machine
end

