-- ==== Sys2Proof/Machine/Operands.lean ====
section
/-! DEFINITION. The operands that a command takes from the state: the three addressing forms of the node file
(spec/20_memory.md R65) and the values `UPDATE` reads before it writes (spec/40_predictor.md R112, step 1). -/

namespace Sys2Proof.Machine

/-- Direct through the current-node register: `NF[CN]`. -/
def currentNode (s : State) : Node := s.node s.cn

/-- Indirect through an edge: the address `NF[CN].e[BIT]`. -/
def targetAddr (s : State) : NodeAddr := (currentNode s).edge s.bit

/-- Indirect through an edge: the node `NF[NF[CN].e[BIT]]`. -/
def targetNode (s : State) : Node := s.node (targetAddr s)

/-- Allocate through the cursor: `POOL_BASE + CUR`, before it is taken as a node address. -/
def slotAddr (s : State) : Nat := Config.poolBase + s.cur.toNat

/-- `used`: the current node's weight on the edge of the observed bit. -/
def usedWeight (s : State) : Weight := (currentNode s).weight s.bit

/-- `total`: the target's aggregate weight. -/
def targetTotal (s : State) : Weight := Num.total (targetNode s).w0 (targetNode s).w1

/-- The cloning rule of step 2, on the values of step 1. -/
def wantsClone (s : State) : Bool := Num.cloneWanted (usedWeight s) (targetTotal s)

/-- The overflow test of step 2: `CUR + 1 > NB`. -/
def poolOverflows (s : State) : Bool := s.nb.toNat < s.cur.toNat + 1

end Sys2Proof.Machine
end

