-- ==== Sys2Proof/Machine/Predictor.lean ====
section
/-! DEFINITION. The predictor commands `FLUSH`, `PREDICT` and `UPDATE` (spec/40_predictor.md). -/

namespace Sys2Proof.Machine

/-- `FLUSH` (R110): the state graph to the base topology; legal in every state, and the coder goes on. -/
def execFlush (s : State) : Host.Outcome State Fault Refusal :=
  .next <| unlessFaulted s fun s => { flushGraph s with gv := true, pv := false }

/-- `PREDICT` (R111): `P <- w0 / (w0 + w1)` at the current node, `PV <- 1`. -/
def execPredict (s : State) : Host.Outcome State Fault Refusal :=
  .next <| unlessFaulted s fun s =>
    if !s.gv then raiseFault .graphNotValid s
    else if !s.implements s.cn.toNat then raiseFault .nodeAddr s
    else { s with p := Num.probability (currentNode s).w0 (currentNode s).w1, pv := true }

/-- The checks of `UPDATE` in the order of R112 and R182, all of them before any write; the node addresses are those
of the current node, of its target and, where the command will clone, of the new slot (log entry 12). -/
def updateFault (s : State) : FaultCode :=
  if !s.gv then .graphNotValid
  else if !s.bv then .bitNotValid
  else if !s.implements s.cn.toNat then .nodeAddr
  else if !s.implements (targetAddr s).toNat then .nodeAddr
  else if wantsClone s && !poolOverflows s && !s.implements (slotAddr s) then .nodeAddr
  else .clear

/-- The cloning writes of step 2 of `UPDATE`, in the order of R112: the new node takes the share `r = used / total`
of the target's weights and its edges, the target keeps the rest, and the current node's edge is redirected. -/
def cloneTarget (s : State) : State :=
  let t := targetAddr s
  let old := targetNode s
  let new := BitVec.ofNat 20 (slotAddr s)
  let r := Num.ratio (usedWeight s) (targetTotal s)
  let n0 := Num.portion old.w0 r
  let n1 := Num.portion old.w1 r
  let s1 := { s.setNode new ⟨n0, n1, old.e0, old.e1⟩ with cur := s.cur + 1 }
  let s2 := s1.setNode t { s1.node t with w0 := Num.remainder old.w0 n0, w1 := Num.remainder old.w1 n1 }
  s2.setNode s.cn ((s2.node s.cn).setEdge s.bit new)

/-- Step 2 of `UPDATE` (R112): clone, or flush where the pool is full, or neither. The overflow branch is dead for
`NB >= 1` (R113) and is kept as the spec writes it. -/
def cloneStep (s : State) : State :=
  if wantsClone s then (if poolOverflows s then flushGraph s else cloneTarget s) else s

/-- Step 3 of `UPDATE` (R112): `NF[n].w[b] <- NF[n].w[b] + 1`, read again after the writes of step 2. -/
def recordBit (n : NodeAddr) (b : Bool) (s : State) : State :=
  s.setNode n ((s.node n).setWeight b (Num.increment ((s.node n).weight b)))

/-- Steps 4 to 6 of `UPDATE` (R112): along the edge of the bit, or to `Root(0)` of a flushed graph where the cursor
has reached the budget (`flushGraph` leaves `CN = Root(0)`). -/
def enterNext (n : NodeAddr) (b : Bool) (s : State) : State :=
  let t := if s.nb.toNat ≤ s.cur.toNat then flushGraph s else { s with cn := (s.node n).edge b }
  { t with bv := false, pv := false }

/-- `UPDATE` (R112): record `BIT` at the current node, perhaps clone, advance, perhaps flush. -/
def execUpdate (s : State) : Host.Outcome State Fault Refusal :=
  .next <| unlessFaulted s fun s =>
    if updateFault s = .clear then enterNext s.cn s.bit (recordBit s.cn s.bit (cloneStep s))
    else raiseFault (updateFault s) s

end Sys2Proof.Machine
end

