-- ==== Sys2Proof/Machine/System.lean ====
section
/-! DEFINITION. The system commands `CINIT` and `SETNB` (spec/42_system.md). -/

namespace Sys2Proof.Machine

/-- `CINIT` (R150): the coder unit to its start values; the predictor and the streams are not touched. -/
def execCinit (s : State) : Host.Outcome State Fault Refusal :=
  .next <| unlessFaulted s fun s =>
    { s with
      min := 0
      max := BitVec.ofNat 25 Config.top
      val := 0
      bit := false
      bv := false
      rcnt := 0
      cstate := .ready }

/-- `SETNB n` (R151): a budget outside `1 .. NB_MAX` raises code 6; else `NB <- n`, `GV <- 0`, `PV <- 0`. -/
def execSetnb (n : Nat) (s : State) : Host.Outcome State Fault Refusal :=
  .next <| unlessFaulted s fun s =>
    if n = 0 ∨ n > Config.nbMax then raiseFault .badNb s
    else { s with nb := BitVec.ofNat 20 n, gv := false, pv := false }

end Sys2Proof.Machine
end

