-- ==== Sys2Proof/Machine/Dispatch.lean ====
section
/-! DEFINITION. One arm per instruction: its meaning. -/

namespace Sys2Proof.Machine

def exec (i : Instr) (s : State) : Host.Outcome State Fault Refusal :=
  match i with
  | .cinit => Sys2Proof.Machine.execCinit s
  | .setnb n => Sys2Proof.Machine.execSetnb n s
  | .flush => Sys2Proof.Machine.execFlush s
  | .predict => Sys2Proof.Machine.execPredict s
  | .update => Sys2Proof.Machine.execUpdate s
  | .encbit b => Sys2Proof.Machine.execEncbit b s
  | .decbit => Sys2Proof.Machine.execDecbit s
  | .finish => Sys2Proof.Machine.execFinish s
  | .seed => Sys2Proof.Machine.execSeed s

end Sys2Proof.Machine
end

