-- ==== Sys2Proof/Machine/Flags.lean ====
section
/-! DEFINITION. The status flag `TERM`, the `STATUS` word and the host register map (spec/10_state.md R29, R35, R37). -/

namespace Sys2Proof.Machine

/-- `TERM`: 1 exactly when `CSTATE = DEC` and `VAL = MAX - 1` (R29). -/
def term (s : State) : Bool := s.cstate = .dec && s.val.toNat + 1 = s.max.toNat

/-- A field of a 32-bit word, placed with its bit 0 at bit `pos`. -/
def fieldAt {w : Nat} (pos : Nat) (x : BitVec w) : BitVec 32 := x.setWidth 32 <<< pos

/-- `STATUS` (R35): `FCODE` at 15:12, `CSTATE` at 10:8, `TERM`, `GV`, `PV`, `BV`, `BIT` at bits 4 to 0; bits 31:16, 11
and 7:5 are reserved and read as 0. -/
def statusWord (s : State) : BitVec 32 :=
  fieldAt 12 s.fcode.code ||| fieldAt 8 s.cstate.code ||| fieldAt 4 (BitVec.ofBool (term s)) |||
    fieldAt 3 (BitVec.ofBool s.gv) ||| fieldAt 2 (BitVec.ofBool s.pv) ||| fieldAt 1 (BitVec.ofBool s.bv) |||
    fieldAt 0 (BitVec.ofBool s.bit)

/-- The host register map (R37, spec/42_system.md R152); numbers 8 and above are not defined. -/
def readReg (k : Nat) (s : State) : Option (BitVec 32) :=
  match k with
  | 0 => some (statusWord s)
  | 1 => some (s.min.setWidth 32)
  | 2 => some (s.max.setWidth 32)
  | 3 => some (s.val.setWidth 32)
  | 4 => some s.rcnt
  | 5 => some (s.cn.setWidth 32)
  | 6 => some (s.cur.setWidth 32)
  | 7 => some (s.nb.setWidth 32)
  | _ => none

end Sys2Proof.Machine
end

