-- ==== Sys2Proof/Machine/HostPort.lean ====
section
/-! DEFINITION. What the block does with each action of the host: a command word, a register read, reset, a fresh
byte source (spec/30_encoding.md R94, spec/42_system.md R152, spec/70_reset_and_hazards.md R200, spec/10_state.md R33). -/

namespace Sys2Proof.Machine

/-- An illegal word raises `Fault(1)` and does nothing else; while the block is faulted it is ignored like any other
word (spec/30_encoding.md R94, spec/60_exceptions.md R180). -/
def execIllegal (s : State) : Host.Outcome State Fault Refusal :=
  .next (unlessFaulted s (raiseFault .illegalCommand))

/-- Execute a command word (spec/30_encoding.md R93, R94). -/
def execWord (w : CommandWord) (s : State) : Host.Outcome State Fault Refusal :=
  match decode w with
  | .ok i => exec i s
  | .error _ => execIllegal s

/-- The host reads register `k`: the word goes to the host and the block does not change; it works while the block is
faulted, and a number that is not defined is refused (spec/42_system.md R152). -/
def hostRead (k : Nat) (s : State) : Host.Outcome State Fault Refusal :=
  match readReg k s with
  | some v => .next { s with replies := s.replies ++ [v] }
  | none => .refused (.reservedRegister k)

/-- The host fixes the byte source (spec/10_state.md R33, spec/43_sequences.md R161). -/
def supplyInput (bytes : List Byte) (s : State) : State := { s with input := bytes, ipos := 0 }

/-- One host action, taken whole (spec/00_scope.md R7). -/
def takeAction (a : HostAction) (s : State) : Host.Outcome State Fault Refusal :=
  match a with
  | .command w => execWord w s
  | .readReg k => hostRead k s
  | .reset => .next (applyReset s)
  | .supply bytes => .next (supplyInput bytes s)

/-- Take the host action presented first; with none presented the block holds its state (spec/60_exceptions.md
R196). -/
def takeNext (s : State) : Host.Outcome State Fault Refusal :=
  match s.pending with
  | [] => .next s
  | a :: rest => takeAction a { s with pending := rest }

/-- The host presents a command word ahead of every action it has already presented. -/
def presentWord (w : CommandWord) (s : State) : State := { s with pending := .command w :: s.pending }

end Sys2Proof.Machine
end

