-- ==== Sys2Proof/Machine/Sequences.lean ====
section
/-! DEFINITION. The pseudo-instructions and the host sequences COMPRESS and DECOMPRESS (spec/30_encoding.md R97,
spec/43_sequences.md). They are host software: functions over the meanings of the commands, with the host's variables
as arguments, not state of the block. -/

namespace Sys2Proof.Machine

/-- Go on from a next state; a fault or a refusal ends the sequence. -/
def andThen {α β : Type} (o : Host.Outcome α Fault Refusal) (k : α → Host.Outcome β Fault Refusal) :
    Host.Outcome β Fault Refusal :=
  match o with
  | .next a => k a
  | .fault r => .fault r
  | .refused r => .refused r

/-- Issue commands one after another. -/
def runCommands : List Instr → State → Host.Outcome State Fault Refusal
  | [], s => .next s
  | i :: rest, s => andThen (exec i s) (runCommands rest)

/-- The bits of a plain byte, most significant first (spec/20_memory.md R68, R164). -/
def bitsMsbFirst (v : Byte) : List Bool := [7, 6, 5, 4, 3, 2, 1, 0].map v.getLsbD

/-- `START` (R97). -/
def pseudoStart : List Instr := [.flush, .cinit]

/-- `CBIT b` (R97). -/
def pseudoCbit (b : Bool) : List Instr := [.predict, .encbit b, .update]

/-- `DBIT` (R97). -/
def pseudoDbit : List Instr := [.predict, .decbit, .update]

/-- `CBYTE v` (R97). -/
def pseudoCbyte (v : Byte) : List Instr := (bitsMsbFirst v).flatMap pseudoCbit

/-- The periodic flush check after plain byte number `count` (R162), with `now = ReadReg(4) = RCNT`: it answers the
new reference point `mark` and the state. DESIGN CHOICE, log entry 21 (unsafe): R4 gives the interval no range and
`mod 0` has no meaning; with interval 0 no check is made after any byte. -/
def periodicCheck (cad : Config.Cadence) (count : Nat) (mark : BitVec 32) (s : State) :
    Host.Outcome (BitVec 32 × State) Fault Refusal :=
  if count % cad.interval = 0 then
    andThen (if cad.growth < (s.rcnt - mark).toNat then exec .flush s else .next s) fun t => .next (s.rcnt, t)
  else .next (mark, s)

/-- The byte loop of COMPRESS (R160), from `inb` plain bytes already coded. -/
def compressBytes (cad : Config.Cadence) : List Byte → Nat → BitVec 32 → State → Host.Outcome State Fault Refusal
  | [], _, _, s => .next s
  | v :: rest, inb, mark, s =>
    andThen (runCommands (pseudoCbyte v) s) fun s =>
      andThen (periodicCheck cad (inb + 1) mark s) fun r => compressBytes cad rest (inb + 1) r.1 r.2

/-- `COMPRESS(S)` (R160), after the optional `SETNB`. -/
def compress (cad : Config.Cadence) (plain : List Byte) (s : State) : Host.Outcome State Fault Refusal :=
  andThen (runCommands pseudoStart s) fun s => andThen (compressBytes cad plain 0 0 s) (exec .finish)

/-- The coded stream of a run: the bytes appended to `OUT` (R160). -/
def codedStream (before after : State) : List Byte := after.output.drop before.output.length

/-- How DECOMPRESS ended: the host's result tags (R161); `outOfFuel` is the model's own (log entry 17). -/
inductive StreamEnd where
  | terminated
  | ended
  | seedFailure
  | outOfFuel
  deriving DecidableEq, Repr

/-- What DECOMPRESS returns: the plain bytes, how the stream ended, and the block's state (R161). -/
structure Decompressed where
  plain : List Byte
  how : StreamEnd
  state : State
  deriving DecidableEq, Repr

/-- Decode the last `k` bits of a plain byte into `v`, bit `k - 1` first; none where the stream ended inside the byte,
whose bits are then discarded (R161, R164). -/
def decodeBits : Nat → Byte → State → Host.Outcome (Option Byte × State) Fault Refusal
  | 0, v, s => .next (some v, s)
  | k + 1, v, s =>
    andThen (runCommands [.predict, .decbit] s) fun s =>
      if s.cstate = .ended then .next (none, s)
      else andThen (exec .update s) (decodeBits k (v ||| ((BitVec.ofBool s.bit).setWidth 8 <<< k)))

/-- The byte loop of DECOMPRESS (R161), `TERM` tested once per plain byte, before its first bit (R165). `fuel` bounds
the plain bytes decoded (log entry 17). -/
def decompressBytes (cad : Config.Cadence) :
    Nat → List Byte → Nat → BitVec 32 → State → Host.Outcome Decompressed Fault Refusal
  | 0, plain, _, _, s => .next ⟨plain, .outOfFuel, s⟩
  | fuel + 1, plain, outb, mark, s =>
    if term s then .next ⟨plain, .terminated, s⟩
    else
      andThen (decodeBits 8 0 s) fun r =>
        match r with
        | (none, s) => .next ⟨plain, .ended, s⟩
        | (some v, s) =>
          andThen (periodicCheck cad (outb + 1) mark s) fun r =>
            decompressBytes cad fuel (plain ++ [v]) (outb + 1) r.1 r.2

/-- `DECOMPRESS(Z)` (R161), after the optional `SETNB`. -/
def decompress (cad : Config.Cadence) (fuel : Nat) (coded : List Byte) (s : State) :
    Host.Outcome Decompressed Fault Refusal :=
  andThen (runCommands (pseudoStart ++ [.seed]) (supplyInput coded s)) fun s =>
    if s.cstate = .seederr then .next ⟨[], .seedFailure, s⟩
    else decompressBytes cad fuel [] 0 0 s

end Sys2Proof.Machine
end

