-- ==== Sys2Proof/Machine/Literal.lean ====
section
/-! DEFINITION. Pseudocode of the spec written out loop by loop, where the model computes the same result in another
way; statements hold the two together. No step calls this file. -/

namespace Sys2Proof.Machine.Literal

/-- The inner loop of `FlushGraph()`: `h` from 1 to 255 in context `c` (spec/40_predictor.md R110). -/
def flushContext (s : State) (c : Nat) : State :=
  (List.range Config.nodesPerContext).foldl
    (fun s i => s.setNode (BitVec.ofNat 20 (c * 256 + (i + 1))) (flushedNode (c * 256 + (i + 1)))) s

/-- `FlushGraph()` as two loops of node writes (spec/40_predictor.md R110). -/
def flushGraph (s : State) : State :=
  { (List.range Config.nctx).foldl flushContext s with cur := 0, cn := BitVec.ofNat 20 (root 0) }

/-- The `while` of `ENCBIT`, at most `fuel` bodies; none where that is not enough (spec/41_coder.md R132). -/
def encodeLoop (b : Bool) : Nat → State → Option State
  | 0, s => if s.width < Config.floor then none else some s
  | fuel + 1, s => if s.width < Config.floor then encodeLoop b fuel (emitStep b s) else some s

/-- The `while` of `DECBIT`, at most `fuel` bodies; none where that is not enough (spec/41_coder.md R133). -/
def decodeLoop (b : Bool) : Nat → State → Option State
  | 0, s => if s.width < Config.floor ∧ s.cstate = .dec then none else some s
  | fuel + 1, s =>
    if s.width < Config.floor ∧ s.cstate = .dec then decodeLoop b fuel (fetchStep b s) else some s

/-- Follow the base topology along bits (spec/20_memory.md R62). -/
def walk : Nat → List Bool → Nat
  | a, [] => a
  | a, b :: rest => walk (baseEdge a b) rest

end Sys2Proof.Machine.Literal
end

