-- ==== Sys2Proof/Safety.lean ====
section
/-! DEFINITION. The terms in which claims speak of a sound state and a safe command: nodes in use, the invariants of
spec/10_state.md section 8, and the legality table of spec/60_exceptions.md R182. -/

namespace Sys2Proof.Safety

open Sys2Proof.Machine

/-- A node in use: a base-grid node, or a clone-pool slot below the cursor (spec/10_state.md R32, R42). -/
def InUse (cur a : Nat) : Prop := isBase a = true ∨ (Config.poolBase ≤ a ∧ a < Config.poolBase + cur)

/-- What the invariants say of one node: positive weights (R42), edges to nodes in use, and no self-edge (R45). -/
structure NodeOk (cur a : Nat) (m : Node) : Prop where
  w0_pos : 0 < m.w0
  w1_pos : 0 < m.w1
  e0_inUse : InUse cur m.e0.toNat
  e1_inUse : InUse cur m.e1.toNat
  e0_ne : m.e0.toNat ≠ a
  e1_ne : m.e1.toNat ≠ a

/-- A valid state graph: the cursor (R43), current-node (R44), weight (R42) and edge (R45) invariants. -/
structure GraphOk (s : State) : Prop where
  cursor : s.cur.toNat < s.nb.toNat
  current : InUse s.cur.toNat s.cn.toNat
  nodes : ∀ a, InUse s.cur.toNat a → NodeOk s.cur.toNat a (nodeAt s.nf a)

/-- A sound interval: order and ceiling (R40), and the width that `CSTATE` promises (R26, R41). -/
structure IntervalOk (s : State) : Prop where
  order : s.min.toNat < s.max.toNat
  ceiling : s.max.toNat ≤ Config.top
  ready : s.cstate = .ready → s.min.toNat = 0 ∧ s.max.toNat = Config.top
  wide : s.cstate = .enc ∨ s.cstate = .dec → Config.floor ≤ s.width
  fin : s.cstate = .fin → s.min.toNat + 1 = s.max.toNat

/-- The invariant of the block: the node file keeps its canonical form, the budget is legal (R31), the read position
is inside `IN` (R33), the interval is sound, a valid graph is sound, and a valid probability comes from a valid graph
and lies strictly between 0 and 1 (R42, R47). -/
structure Inv (s : State) : Prop where
  file : s.nf.wf = true
  budget : 1 ≤ s.nb.toNat ∧ s.nb.toNat ≤ Config.nbMax
  source : s.ipos ≤ s.input.length
  interval : IntervalOk s
  graph : s.gv = true → GraphOk s
  probability : s.pv = true → s.gv = true ∧ 0 < s.p ∧ s.p < 1

/-- The last three coded bytes that the decoder consumed, first byte most significant, are in `VAL` (R46). -/
def ValHoldsLastBytes (s : State) : Prop :=
  s.cstate = .dec ∨ s.cstate = .ended →
    ∃ b0 b1 b2, 3 ≤ s.ipos ∧ s.input[s.ipos - 3]? = some b0 ∧ s.input[s.ipos - 2]? = some b1 ∧
      s.input[s.ipos - 1]? = some b2 ∧ s.val.toNat = b0.toNat * 65536 + b1.toNat * 256 + b2.toNat

/-- The code that spec/60_exceptions.md R182 gives a command, steps 3 to 7, or `clear` where the command is legal. -/
def legality (i : Instr) (s : State) : FaultCode :=
  match i with
  | .cinit => .clear
  | .setnb n => if n = 0 ∨ n > Config.nbMax then .badNb else .clear
  | .flush => .clear
  | .predict => if s.gv then .clear else .graphNotValid
  | .update => if s.gv = false then .graphNotValid else if s.bv then .clear else .bitNotValid
  | .encbit _ =>
    if s.cstate ≠ .ready ∧ s.cstate ≠ .enc then .badCState else if s.pv then .clear else .pNotValid
  | .decbit => if s.cstate ≠ .dec then .badCState else if s.pv then .clear else .pNotValid
  | .finish => if s.cstate ≠ .ready ∧ s.cstate ≠ .enc then .badCState else .clear
  | .seed => if s.cstate ≠ .ready then .badCState else .clear

/-- A safe outcome: a next state in which the block is not faulted. -/
def SafeOutcome (o : Host.Outcome State Fault Refusal) : Prop := ∃ t, o = .next t ∧ t.fcode = .clear

end Sys2Proof.Safety
end

