-- ==== Sys2Proof/Certificates/Slice0/Obligations.lean ====
section
/-! DEFINITION. The statements about AC24, from the numbered rules of spec/. A statement about a command's result gives
the whole next state, so that every field it does not name is unchanged. -/

open Sys2Proof Sys2Proof.Machine Sys2Proof.Safety

/-! ## Encoding (spec/30_encoding.md) -/

/-- R91, R92, R93: what the encoder writes for a well-formed instruction, the decoder reads back, every operand
included. -/
def Obligations.DecodeOfEncodeIsTheInstruction : Prop :=
  ∀ i : Instr, i.wellFormed = true → decode (encode i) = .ok i

/-- R90 to R94: a word that decodes is the one word of its instruction, so no bit of it is ignored. -/
def Obligations.DecodedWordIsTheEncoding : Prop :=
  ∀ (w : CommandWord) (i : Instr), decode w = .ok i → i.wellFormed = true ∧ encode i = w

/-- R93, and R92 for the operands: a word is a well-formed instance of a command exactly when `w & mask = match`, with
the masks and matches of spec/opcode_table.json. -/
def Obligations.DecodeFollowsMatchAndMask : Prop :=
  ∀ w : CommandWord,
    (decode w = .ok .cinit ↔ w &&& 0xFFFFFFFF#32 = 0x01000000#32) ∧
    (∀ n, decode w = .ok (.setnb n) ↔ w &&& 0xFFF00000#32 = 0x02000000#32 ∧ n = w.toNat % 2 ^ 20) ∧
    (decode w = .ok .flush ↔ w &&& 0xFFFFFFFF#32 = 0x10000000#32) ∧
    (decode w = .ok .predict ↔ w &&& 0xFFFFFFFF#32 = 0x11000000#32) ∧
    (decode w = .ok .update ↔ w &&& 0xFFFFFFFF#32 = 0x12000000#32) ∧
    (∀ b, decode w = .ok (.encbit b) ↔ w &&& 0xFFFFFFFE#32 = 0x20000000#32 ∧ b.toNat = w.toNat % 2) ∧
    (decode w = .ok .decbit ↔ w &&& 0xFFFFFFFF#32 = 0x21000000#32) ∧
    (decode w = .ok .finish ↔ w &&& 0xFFFFFFFF#32 = 0x22000000#32) ∧
    (decode w = .ok .seed ↔ w &&& 0xFFFFFFFF#32 = 0x23000000#32)

/-- The words of R93, written out by hand from its table, decode to their commands. -/
def Obligations.WordsOfTheOpcodeMapDecode : Prop :=
  decode 0x01000000 = .ok .cinit ∧ decode 0x0207FFED = .ok (.setnb 524269) ∧ decode 0x10000000 = .ok .flush ∧
    decode 0x11000000 = .ok .predict ∧ decode 0x12000000 = .ok .update ∧ decode 0x20000001 = .ok (.encbit true) ∧
    decode 0x21000000 = .ok .decbit ∧ decode 0x22000000 = .ok .finish ∧ decode 0x23000000 = .ok .seed

/-- The legal words of R93 and R94 by arithmetic on the word: `OPC` is `w / 2^24`, `ARG` is `w mod 2^24`. -/
def legalWord (w : CommandWord) : Prop :=
  let opc := w.toNat / 2 ^ 24
  let arg := w.toNat % 2 ^ 24
  ((opc = 0x01 ∨ opc = 0x10 ∨ opc = 0x11 ∨ opc = 0x12 ∨ opc = 0x21 ∨ opc = 0x22 ∨ opc = 0x23) ∧ arg = 0) ∨
    (opc = 0x20 ∧ arg < 2) ∨ (opc = 0x02 ∧ arg < 2 ^ 20)

/-- R94: an illegal word raises `Fault(1)` and has no other effect; `0x00000000` and `0xFFFFFFFF` are illegal; a
`SETNB` word with an operand out of range is legal and is rejected at execution with code 6. A legal word is some
command. -/
def Obligations.IllegalWordRaisesFaultOne : Prop :=
  (∀ (s : State) (w : CommandWord) (rest : List HostAction), s.pending = .command w :: rest → s.fcode = .clear →
    ¬ legalWord w → step s = .next { s with pending := rest, fcode := .illegalCommand }) ∧
  (∀ w, legalWord w → ∃ i, decode w = .ok i) ∧
  ¬ legalWord 0x00000000 ∧ ¬ legalWord 0xFFFFFFFF ∧
  (∀ n, n < 2 ^ 20 → legalWord (BitVec.ofNat 32 (0x02000000 + n)) ∧
    ∀ (s : State) (rest : List HostAction), s.pending = .command (BitVec.ofNat 32 (0x02000000 + n)) :: rest →
      s.fcode = .clear → n = 0 ∨ n > 983040 → step s = .next { s with pending := rest, fcode := .badNb })

/-! ## The step and the host's actions -/

/-- R93, R7: a step whose next host action is a command word that decodes to an instruction is `exec` of it, on the
state with that action taken. -/
def Obligations.StepRunsTheDecodedInstruction : Prop :=
  ∀ (s : State) (w : CommandWord) (i : Instr) (rest : List HostAction),
    s.pending = .command w :: rest → decode w = .ok i → step s = exec i { s with pending := rest }

/-- The other steps: a register read answers the word and changes nothing else (R152), a fresh byte source has
`IPOS = 0` (R33), and with nothing presented the block holds its state (R196). That actions are queued in the state is
the model's choice (log entries 6, 7, 8). -/
def Obligations.StepTakesHostActions : Prop :=
  ∀ (s : State) (rest : List HostAction),
    (s.pending = [] → step s = .next s) ∧
    (∀ k v, s.pending = .readReg k :: rest → readReg k s = some v →
      step s = .next { s with pending := rest, replies := s.replies ++ [v] }) ∧
    (∀ bytes, s.pending = .supply bytes :: rest →
      step s = .next { s with pending := rest, input := bytes, ipos := 0 })

/-- No step stops with a fault, and a step is refused exactly when the host reads a register number that is not
defined (R152 and spec/93_implementation_defined.md U8; log entry 9). -/
def Obligations.StepRefusesOnlyReservedReads : Prop :=
  ∀ s : State, (∀ r, step s ≠ .fault r) ∧
    ∀ r, step s = .refused r ↔ ∃ k rest, s.pending = .readReg k :: rest ∧ 8 ≤ k ∧ r = .reservedRegister k

/-- R28: while `FCODE` is not 0 every command word, legal or not, is ignored; and a step changes a code that is not 0
only by reset, which clears it. -/
def Obligations.FaultCodeIsSticky : Prop :=
  (∀ (s : State) (w : CommandWord) (rest : List HostAction), s.fcode ≠ .clear → s.pending = .command w :: rest →
    step s = .next { s with pending := rest }) ∧
  (∀ s t : State, step s = .next t → s.fcode ≠ .clear → t.fcode ≠ s.fcode →
    (∃ rest, s.pending = .reset :: rest) ∧ t.fcode = .clear)

/-- R152: the register map, as numbers; every defined read has its value and a number of 8 or more has none. -/
def Obligations.RegisterMapValues : Prop :=
  ∀ s : State,
    readReg 0 s = some (statusWord s) ∧
    (∃ v, readReg 1 s = some v ∧ v.toNat = s.min.toNat) ∧
    (∃ v, readReg 2 s = some v ∧ v.toNat = s.max.toNat) ∧
    (∃ v, readReg 3 s = some v ∧ v.toNat = s.val.toNat) ∧
    readReg 4 s = some s.rcnt ∧
    (∃ v, readReg 5 s = some v ∧ v.toNat = s.cn.toNat) ∧
    (∃ v, readReg 6 s = some v ∧ v.toNat = s.cur.toNat) ∧
    (∃ v, readReg 7 s = some v ∧ v.toNat = s.nb.toNat) ∧
    ∀ k, 8 ≤ k → readReg k s = none

/-- R35 and R29: every field of `STATUS` at its bits, reserved bits 0, and `TERM` exactly where `CSTATE = DEC` and
`VAL = MAX - 1`; with the numbers that R26 gives the coder states and R181 gives the fault codes. -/
def Obligations.StatusWordLayout : Prop :=
  ∀ s : State,
    (statusWord s).getLsbD 0 = s.bit ∧ (statusWord s).getLsbD 1 = s.bv ∧ (statusWord s).getLsbD 2 = s.pv ∧
    (statusWord s).getLsbD 3 = s.gv ∧
    ((statusWord s).getLsbD 4 = true ↔ s.cstate = .dec ∧ (s.val.toNat : Int) = (s.max.toNat : Int) - 1) ∧
    (statusWord s).extractLsb' 5 3 = 0 ∧ (statusWord s).extractLsb' 8 3 = s.cstate.code ∧
    (statusWord s).extractLsb' 11 1 = 0 ∧ (statusWord s).extractLsb' 12 4 = s.fcode.code ∧
    (statusWord s).extractLsb' 16 16 = 0 ∧
    [CState.ready, .enc, .dec, .fin, .ended, .seederr].map CState.code = [0, 1, 2, 3, 4, 5] ∧
    [FaultCode.clear, .illegalCommand, .graphNotValid, .pNotValid, .bitNotValid, .badCState, .badNb, .nodeAddr].map
      FaultCode.code = [0, 1, 2, 3, 4, 5, 6, 7]

/-- The values of the table of R39, for every register that the table gives one. -/
def hasResetValues (s : State) : Prop :=
  s.min.toNat = 0 ∧ s.max.toNat = 2 ^ 24 ∧ s.val.toNat = 0 ∧ s.bit = false ∧ s.bv = false ∧ s.pv = false ∧
    s.gv = false ∧ s.cstate = .ready ∧ s.fcode = .clear ∧ term s = false ∧ s.rcnt.toNat = 0 ∧ s.cn.toNat = 0x00001 ∧
    s.cur.toNat = 0 ∧ s.nb.toNat = 524269

/-- R39: reset gives every register the value of the table, from any state, also a faulted one, and leaves `IN`,
`IPOS` and `OUT`; the state after reset has these values. What becomes of `P` and `NF`, which the table gives no
value, is not stated. -/
def Obligations.ResetGivesTheResetValues : Prop :=
  hasResetValues State.reset ∧
  ∀ (s : State) (rest : List HostAction), s.pending = .reset :: rest →
    ∃ t, step s = .next t ∧ hasResetValues t ∧ t.input = s.input ∧ t.ipos = s.ipos ∧ t.output = s.output

/-! ## The system commands (spec/42_system.md) -/

/-- R150: `CINIT` in every state of the coder: exactly the seven items change; and no other command leaves `FIN`,
`ENDED` or `SEEDERR`. -/
def Obligations.CinitResult : Prop :=
  (∀ s : State, s.fcode = .clear →
    exec .cinit s = .next { s with
      min := 0, max := 0x1000000, val := 0, bit := false, bv := false, rcnt := 0, cstate := .ready }) ∧
  ∀ (i : Instr) (s t : State), exec i s = .next t → s.cstate = .fin ∨ s.cstate = .ended ∨ s.cstate = .seederr →
    i = .cinit ∨ t.cstate = s.cstate

/-- R151: `SETNB n` accepts 1 to 983040, clears `GV` and `PV`, and rejects every other operand with code 6. -/
def Obligations.SetnbResult : Prop :=
  ∀ (s : State) (n : Nat), s.fcode = .clear →
    (1 ≤ n → n ≤ 983040 →
      ∃ t, exec (.setnb n) s = .next t ∧ t.nb.toNat = n ∧ t = { s with nb := t.nb, gv := false, pv := false }) ∧
    (n = 0 ∨ 983040 < n → exec (.setnb n) s = .next { s with fcode := .badNb })

/-! ## The predictor commands (spec/40_predictor.md) -/

/-- R62: the base topology: its edges in closed form; the heap index `2^k + q` of the node that has seen the `k`-bit
prefix `q` of a byte, most significant bit first; and its meaning: from the root of any context, the eight bits of a
byte lead to the root of the context whose index is that byte. -/
def Obligations.BaseTopologyReachesByteContext : Prop :=
  (∀ c : Nat, root c = c * 256 + 1) ∧
  (∀ c h : Nat, ∀ b : Bool, c < 256 → 1 ≤ h → h ≤ 127 → baseEdge (c * 256 + h) b = c * 256 + (2 * h + b.toNat)) ∧
  (∀ c h : Nat, ∀ b : Bool, c < 256 → 128 ≤ h → h ≤ 255 →
    baseEdge (c * 256 + h) b = root (2 * (h - 128) + b.toNat)) ∧
  (∀ (c k : Nat) (v : Byte), c < 256 → k ≤ 7 →
    Literal.walk (root c) ((bitsMsbFirst v).take k) = c * 256 + (2 ^ k + v.toNat / 2 ^ (8 - k))) ∧
  (∀ (c : Nat) (v : Byte), c < 256 → Literal.walk (root c) (bitsMsbFirst v) = root v.toNat)

/-- R110: `FLUSH` in every state: every base-grid node at weights 1/5 with the edges of the base topology, `CUR = 0`,
`CN = Root(0)`, `GV = 1`, `PV = 0`, and every other node and field as before. -/
def Obligations.FlushResult : Prop :=
  ∀ s : State, s.fcode = .clear →
    ∃ t, exec .flush s = .next t ∧
      t = { s with nf := t.nf, cur := 0, cn := 0x00001, gv := true, pv := false } ∧
      (∀ c h : Nat, c < 256 → 1 ≤ h → h ≤ 255 →
        nodeAt t.nf (c * 256 + h) =
          ⟨1 / 5, 1 / 5, BitVec.ofNat 20 (baseEdge (c * 256 + h) false), BitVec.ofNat 20 (baseEdge (c * 256 + h) true)⟩) ∧
      (∀ a : Nat, (65536 ≤ a ∨ a % 256 = 0) → nodeAt t.nf a = nodeAt s.nf a)

/-- R110: the model's `FlushGraph()`, which drops list entries, is the double loop of node writes, as equal states. -/
def Obligations.FlushGraphIsTheDoubleLoop : Prop :=
  ∀ s : State, s.nf.wf = true → flushGraph s = Literal.flushGraph s

/-- The canonical form does its work: node files that read alike at every address are equal. The form is the model's
choice (log entries 3 and 20). -/
def Obligations.CanonicalNodeFilesAreEqual : Prop :=
  ∀ f g : NodeFile, f.wf = true → g.wf = true → (∀ a, nodeAt f a = nodeAt g a) → f = g

/-- R111: `PREDICT` writes `w0 / (w0 + w1)` of the current node to `P`, sets `PV`, and changes nothing else; without a
valid graph it raises code 2, at an unimplemented node code 7. -/
def Obligations.PredictResult : Prop :=
  ∀ s : State, s.fcode = .clear →
    (s.gv = true → s.implements s.cn.toNat = true → (s.node s.cn).w0 + (s.node s.cn).w1 ≠ 0 →
      exec .predict s = .next { s with
        p := (s.node s.cn).w0 / ((s.node s.cn).w0 + (s.node s.cn).w1), pv := true }) ∧
    (s.gv = false → exec .predict s = .next { s with fcode := .graphNotValid }) ∧
    (s.gv = true → s.implements s.cn.toNat = false → exec .predict s = .next { s with fcode := .nodeAddr })

/-- U3 and log entry 5: where the weights of the current node sum to 0, which no run reaches, `PREDICT` still
completes, with some value in `P`. -/
def Obligations.PredictCompletesOnZeroTotal : Prop :=
  ∀ s : State, s.fcode = .clear → s.gv = true → s.implements s.cn.toNat = true →
    (s.node s.cn).w0 + (s.node s.cn).w1 = 0 → ∃ q, exec .predict s = .next { s with p := q, pv := true }

/-- R42 and R111: in a sound state with a valid graph `PREDICT` completes with a probability strictly between 0 and 1
that divides the current node's total as its weights do. -/
def Obligations.PredictGivesAProperProbability : Prop :=
  ∀ s : State, Inv s → s.gv = true → s.fcode = .clear →
    ∃ q, exec .predict s = .next { s with p := q, pv := true } ∧ 0 < q ∧ q < 1 ∧
      q * ((s.node s.cn).w0 + (s.node s.cn).w1) = (s.node s.cn).w0

/-- The premises under which `UPDATE` is legal in a sound state (R112, R182). -/
def updateLegal (s : State) : Prop := Inv s ∧ s.fcode = .clear ∧ s.gv = true ∧ s.bv = true

/-- The target of the step: the address `NF[CN].e[BIT]` (R112, step 1). -/
def updateTarget (s : State) : NodeAddr := if s.bit then (s.node s.cn).e1 else (s.node s.cn).e0

/-- `used` of R112, step 1. -/
def updateUsed (s : State) : Weight := if s.bit then (s.node s.cn).w1 else (s.node s.cn).w0

/-- `total` of R112, step 1. -/
def updateTotal (s : State) : Weight := (s.node (updateTarget s)).w0 + (s.node (updateTarget s)).w1

/-- The cloning rule of R112, step 2. -/
def updateClones (s : State) : Prop := 2 ≤ updateUsed s ∧ 2 + updateUsed s ≤ updateTotal s

/-- A node with 1 added to its weight on bit `b` (R112, step 3). -/
def counted (b : Bool) (m : Node) : Node := ⟨if b then m.w0 else m.w0 + 1, if b then m.w1 + 1 else m.w1, m.e0, m.e1⟩

/-- R112 without cloning: 1 is added to the current node's weight on the observed bit, `CN` follows that edge, `BV` and
`PV` are cleared; no other node and no other field changes. -/
def Obligations.UpdateWithoutCloning : Prop :=
  ∀ s : State, updateLegal s → ¬ updateClones s →
    ∃ t, exec .update s = .next t ∧
      t = { s with nf := t.nf, cn := updateTarget s, bv := false, pv := false } ∧
      nodeAt t.nf s.cn.toNat = counted s.bit (s.node s.cn) ∧
      ∀ a, a ≠ s.cn.toNat → nodeAt t.nf a = nodeAt s.nf a

/-- R112 with cloning into a slot that is not the last: the new node takes the share `r = used / total` of the target's
weights and its edges, the target keeps the rest, the current node's edge is redirected to the new node and its weight
grows by 1, and `CN` is the new node. No other node and no other field changes. -/
def Obligations.UpdateWithCloning : Prop :=
  ∀ s : State, updateLegal s → updateClones s → s.cur.toNat + 1 < s.nb.toNat →
    let old := s.node (updateTarget s)
    let r := updateUsed s / updateTotal s
    let new := BitVec.ofNat 20 (0x10000 + s.cur.toNat)
    let here := counted s.bit (s.node s.cn)
    ∃ t, exec .update s = .next t ∧
      t = { s with nf := t.nf, cur := s.cur + 1, cn := new, bv := false, pv := false } ∧
      nodeAt t.nf (0x10000 + s.cur.toNat) = ⟨old.w0 * r, old.w1 * r, old.e0, old.e1⟩ ∧
      nodeAt t.nf (updateTarget s).toNat = ⟨old.w0 - old.w0 * r, old.w1 - old.w1 * r, old.e0, old.e1⟩ ∧
      nodeAt t.nf s.cn.toNat =
        ⟨here.w0, here.w1, if s.bit then here.e0 else new, if s.bit then new else here.e1⟩ ∧
      ∀ a, a ≠ 0x10000 + s.cur.toNat → a ≠ (updateTarget s).toNat → a ≠ s.cn.toNat → nodeAt t.nf a = nodeAt s.nf a

/-- R115 and R112, step 5: the clone that takes the last slot flushes: the base grid, `CUR` and `CN` are as
`FlushGraph()` leaves them, `BV` and `PV` are 0, and everything else is unchanged, but for the contents of pool slots,
none of which is in use. -/
def Obligations.UpdateThatFillsThePoolFlushes : Prop :=
  ∀ s : State, updateLegal s → updateClones s → s.cur.toNat + 1 = s.nb.toNat →
    ∃ t, exec .update s = .next t ∧
      t = { s with nf := t.nf, cur := 0, cn := 0x00001, bv := false, pv := false } ∧
      (∀ c h : Nat, c < 256 → 1 ≤ h → h ≤ 255 →
        nodeAt t.nf (c * 256 + h) =
          ⟨1 / 5, 1 / 5, BitVec.ofNat 20 (baseEdge (c * 256 + h) false), BitVec.ofNat 20 (baseEdge (c * 256 + h) true)⟩) ∧
      ∀ a, 65536 ≤ a ∨ a % 256 = 0 → a ≠ 0x10000 + s.cur.toNat → a ≠ (updateTarget s).toNat → a ≠ s.cn.toNat →
        nodeAt t.nf a = nodeAt s.nf a

/-- R114: the cloning writes conserve weight: the new node and the target share the target's old weights, the new node
has `used`, the target keeps `total - used >= 2`, all four weights are positive, and the new node predicts what the
target did. -/
def Obligations.CloningConservesWeight : Prop :=
  ∀ s : State, Inv s → s.gv = true → updateClones s →
    let t := cloneTarget s
    let new := nodeAt t.nf (0x10000 + s.cur.toNat)
    let kept := nodeAt t.nf (updateTarget s).toNat
    let old := s.node (updateTarget s)
    new.w0 + kept.w0 = old.w0 ∧ new.w1 + kept.w1 = old.w1 ∧ new.w0 + new.w1 = updateUsed s ∧
      kept.w0 + kept.w1 = updateTotal s - updateUsed s ∧ 2 ≤ updateTotal s - updateUsed s ∧
      0 < new.w0 ∧ 0 < new.w1 ∧ 0 < kept.w0 ∧ 0 < kept.w1 ∧
      new.w0 / (new.w0 + new.w1) = old.w0 / updateTotal s

/-- R112 and R182: the faults of `UPDATE`, in their order, in any state: code 2 without a valid graph, then code 4
without a valid bit, then code 7 where the current node or its target has no implemented address; nothing else
changes. That the address checks come before every write is the model's choice (log entry 12). -/
def Obligations.UpdateFaults : Prop :=
  ∀ s : State, s.fcode = .clear →
    (s.gv = false → exec .update s = .next { s with fcode := .graphNotValid }) ∧
    (s.gv = true → s.bv = false → exec .update s = .next { s with fcode := .bitNotValid }) ∧
    (s.gv = true → s.bv = true →
      s.implements s.cn.toNat = false ∨ s.implements (updateTarget s).toNat = false →
      exec .update s = .next { s with fcode := .nodeAddr })

/-! ## The coder commands (spec/41_coder.md) -/

/-- R130: `Mid` is the formula with its two clamp tests in sequence; for a width of 3 or more the result is strictly
inside, and at most `hi - 2`; for widths 2 and 1 it is `lo` and `hi`. -/
def Obligations.MidSplitsStrictlyInside : Prop :=
  ∀ (lo hi : Nat) (p : Weight), lo < hi → hi ≤ 2 ^ 24 → 0 ≤ p → p ≤ 1 →
    (∃ k : Nat, (k : Int) = ⌊((hi - lo - 1 : Nat) : ℚ) * p⌋ ∧ k ≤ hi - lo - 1 ∧
      ∃ m, m = (if lo + k = lo then lo + k + 1 else lo + k) ∧
        mid lo hi p = if m = hi - 1 then m - 1 else m) ∧
    (lo + 3 ≤ hi → lo + 1 ≤ mid lo hi p ∧ mid lo hi p ≤ hi - 2) ∧
    (hi = lo + 2 → mid lo hi p = lo) ∧
    (hi = lo + 1 → mid lo hi p = hi)

/-- R131: `Shift()` keeps the low 16 bits of each bound, moved up a byte, and puts `MAX` at the ceiling exactly where
the shifted `MIN` is at or above the shifted `MAX`; whatever the bounds were, they come out in order and at least 256
apart. -/
def Obligations.ShiftOpensTheInterval : Prop :=
  ∀ s : State,
    (shiftInterval s).min.toNat = s.min.toNat % 65536 * 256 ∧
    ((shiftInterval s).max.toNat =
      if s.max.toNat % 65536 * 256 ≤ s.min.toNat % 65536 * 256 then 2 ^ 24 else s.max.toNat % 65536 * 256) ∧
    (shiftInterval s).min.toNat + 256 ≤ (shiftInterval s).max.toNat ∧ (shiftInterval s).max.toNat ≤ 2 ^ 24 ∧
    shiftInterval s = { s with min := (shiftInterval s).min, max := (shiftInterval s).max }

/-- R136: in every state the `while` loops of R132 and R133 run their bodies at most once, so the model's single step
is the loop; and when the encoder's ends the width is at least 256. -/
def Obligations.RenormalizationLoopsRunOnce : Prop :=
  ∀ (s : State) (b : Bool) (n : Nat),
    Literal.encodeLoop b (n + 1) s = some (renormEncode b s) ∧ 256 ≤ (renormEncode b s).width ∧
    (s.cstate = .dec → Literal.decodeLoop b (n + 1) s = some (renormDecode b s) ∧
      ((renormDecode b s).cstate = .dec → 256 ≤ (renormDecode b s).width))

/-- The premises on the interval and the probability under which the coding commands work (R40, R41, R23). -/
def codable (s : State) : Prop :=
  s.min.toNat + 256 ≤ s.max.toNat ∧ s.max.toNat ≤ 2 ^ 24 ∧ 0 ≤ s.p ∧ s.p ≤ 1

/-- The lower bound after narrowing for bit `b` at the split point (R132). -/
def narrowedMin (b : Bool) (s : State) : Nat := if b then mid s.min.toNat s.max.toNat s.p else s.min.toNat

/-- The upper bound after narrowing for bit `b` at the split point (R132). -/
def narrowedMax (b : Bool) (s : State) : Nat := if b then s.max.toNat else mid s.min.toNat s.max.toNat s.p

/-- The upper bound after the bit-1 correction of a renormalization step (R131). -/
def correctedMax (b : Bool) (s : State) : Nat := if b then narrowedMax b s - 1 else narrowedMax b s

/-- `MAX` after `Shift()` of the narrowed and corrected bounds (R131). -/
def shiftedMax (b : Bool) (s : State) : Nat :=
  if correctedMax b s % 65536 * 256 ≤ narrowedMin b s % 65536 * 256 then 2 ^ 24 else correctedMax b s % 65536 * 256

/-- R132: `ENCBIT b` narrows at `Mid`; where fewer than 256 values are left it emits the top byte of the new `MIN`,
counts the step and shifts; it latches the bit, uses up the probability and enters `ENC`; nothing else changes. In
another coder state it raises code 5, without a valid probability code 3. -/
def Obligations.EncbitResult : Prop :=
  ∀ (s : State) (b : Bool), s.fcode = .clear →
    (s.cstate = .ready ∨ s.cstate = .enc → s.pv = true → codable s →
      ∃ t, exec (.encbit b) s = .next t ∧
        t = { s with min := t.min, max := t.max, rcnt := t.rcnt, output := t.output,
                     bit := b, bv := true, pv := false, cstate := .enc } ∧
        (256 ≤ narrowedMax b s - narrowedMin b s →
          t.min.toNat = narrowedMin b s ∧ t.max.toNat = narrowedMax b s ∧ t.rcnt = s.rcnt ∧ t.output = s.output) ∧
        (narrowedMax b s - narrowedMin b s < 256 →
          t.min.toNat = narrowedMin b s % 65536 * 256 ∧ t.max.toNat = shiftedMax b s ∧ t.rcnt = s.rcnt + 1 ∧
            t.output = s.output ++ [BitVec.ofNat 8 (narrowedMin b s / 65536)])) ∧
    (s.cstate ≠ .ready → s.cstate ≠ .enc → exec (.encbit b) s = .next { s with fcode := .badCState }) ∧
    (s.cstate = .ready ∨ s.cstate = .enc → s.pv = false → exec (.encbit b) s = .next { s with fcode := .pNotValid })

/-- R133: `DECBIT` decodes 1 exactly when `VAL >= Mid`, narrows, and where fewer than 256 values are left takes the
next coded byte into `VAL`, counts the step and shifts; with no next byte it stops after the correction, in `ENDED`.
Nothing else changes. In a state other than `DEC` it raises code 5, without a valid probability code 3. -/
def Obligations.DecbitResult : Prop :=
  ∀ s : State, s.fcode = .clear →
    (s.cstate = .dec → s.pv = true → codable s →
      ∃ t b, exec .decbit s = .next t ∧ (b = true ↔ mid s.min.toNat s.max.toNat s.p ≤ s.val.toNat) ∧
        t = { s with min := t.min, max := t.max, val := t.val, rcnt := t.rcnt, ipos := t.ipos, cstate := t.cstate,
                     bit := b, bv := true, pv := false } ∧
        (256 ≤ narrowedMax b s - narrowedMin b s →
          t.min.toNat = narrowedMin b s ∧ t.max.toNat = narrowedMax b s ∧ t.val = s.val ∧ t.rcnt = s.rcnt ∧
            t.ipos = s.ipos ∧ t.cstate = .dec) ∧
        (∀ v, narrowedMax b s - narrowedMin b s < 256 → s.input[s.ipos]? = some v →
          t.min.toNat = narrowedMin b s % 65536 * 256 ∧ t.max.toNat = shiftedMax b s ∧
            t.val.toNat = s.val.toNat % 65536 * 256 + v.toNat ∧ t.rcnt = s.rcnt + 1 ∧ t.ipos = s.ipos + 1 ∧
            t.cstate = .dec) ∧
        (narrowedMax b s - narrowedMin b s < 256 → s.input[s.ipos]? = none →
          t.min.toNat = narrowedMin b s ∧ t.max.toNat = correctedMax b s ∧ t.val = s.val ∧ t.rcnt = s.rcnt ∧
            t.ipos = s.ipos ∧ t.cstate = .ended)) ∧
    (s.cstate ≠ .dec → exec .decbit s = .next { s with fcode := .badCState }) ∧
    (s.cstate = .dec → s.pv = false → exec .decbit s = .next { s with fcode := .pNotValid })

/-- R134 and R67: `FINISH` sets `MIN <- MAX - 1`, writes its three bytes most significant first, and enters `FIN`;
nothing else changes. In another coder state it raises code 5. -/
def Obligations.FinishResult : Prop :=
  ∀ s : State, s.fcode = .clear →
    (s.cstate = .ready ∨ s.cstate = .enc → 1 ≤ s.max.toNat → s.max.toNat ≤ 2 ^ 24 →
      ∃ t b0 b1 b2, exec .finish s = .next t ∧ t.min.toNat = s.max.toNat - 1 ∧
        b0.toNat * 65536 + b1.toNat * 256 + b2.toNat = s.max.toNat - 1 ∧
        t = { s with min := t.min, output := s.output ++ [b0, b1, b2], cstate := .fin }) ∧
    (s.cstate ≠ .ready → s.cstate ≠ .enc → exec .finish s = .next { s with fcode := .badCState })

/-- R135 and R67: `SEED` loads `VAL` from the next three coded bytes, first byte most significant, and enters `DEC`;
with fewer than three left it consumes them and enters `SEEDERR`, `VAL` unchanged; nothing else changes. In another
coder state it raises code 5. -/
def Obligations.SeedResult : Prop :=
  ∀ s : State, s.fcode = .clear →
    (∀ b0 b1 b2, s.cstate = .ready → s.input[s.ipos]? = some b0 → s.input[s.ipos + 1]? = some b1 →
      s.input[s.ipos + 2]? = some b2 →
      ∃ t, exec .seed s = .next t ∧ t.val.toNat = b0.toNat * 65536 + b1.toNat * 256 + b2.toNat ∧
        t = { s with val := t.val, ipos := s.ipos + 3, cstate := .dec }) ∧
    (s.cstate = .ready → s.input.length - s.ipos < 3 →
      exec .seed s = .next { s with ipos := s.input.length, cstate := .seederr }) ∧
    (s.cstate ≠ .ready → exec .seed s = .next { s with fcode := .badCState })

/-- R137: whenever a renormalization step of a coding command runs, `MAX` after the correction, which is what `Shift()`
sees, is below `2^24`: for bit 0 it is the split point, at most `2^24 - 2`, for bit 1 at most `2^24 - 1`. -/
def Obligations.ShiftNeverSeesTheCeiling : Prop :=
  ∀ (s : State) (b : Bool), codable s → narrowedMax b s - narrowedMin b s < 256 →
    (correct b (narrow b (mid s.min.toNat s.max.toNat s.p) s)).max.toNat = correctedMax b s ∧
      correctedMax b s < 2 ^ 24 ∧
      (b = false → correctedMax b s = mid s.min.toNat s.max.toNat s.p ∧ correctedMax b s ≤ 2 ^ 24 - 2) ∧
      (b = true → correctedMax b s ≤ 2 ^ 24 - 1)

/-- R139: the byte that a step of `ENCBIT` emits is the top byte of `MAX` too when the shift does not collapse the
interval, and one less than it when it does. -/
def Obligations.EmittedByteIsTheCommonOrLowerTopByte : Prop :=
  ∀ (s t : State) (b : Bool), s.fcode = .clear → (s.cstate = .ready ∨ s.cstate = .enc) → s.pv = true → codable s →
    exec (.encbit b) s = .next t → narrowedMax b s - narrowedMin b s < 256 →
    ∃ v : Byte, t.output = s.output ++ [v] ∧
      (correctedMax b s % 65536 * 256 > narrowedMin b s % 65536 * 256 → correctedMax b s / 65536 = v.toNat) ∧
      (correctedMax b s % 65536 * 256 ≤ narrowedMin b s % 65536 * 256 →
        correctedMax b s / 65536 = v.toNat + 1 ∧ t.max.toNat = 2 ^ 24)

/-- R25: `RCNT` grows by 1, modulo `2^32`, for every byte that `ENCBIT` emits or `DECBIT` consumes, and for nothing
else; `CINIT` clears it. -/
def Obligations.RcntCountsMovedBytes : Prop :=
  ∀ (i : Instr) (s t : State), exec i s = .next t →
    (∀ b, i = .encbit b → (t.output = s.output ∧ t.rcnt = s.rcnt) ∨
      ∃ v, t.output = s.output ++ [v] ∧ t.rcnt = s.rcnt + 1) ∧
    (i = .decbit → (t.ipos = s.ipos ∧ t.rcnt = s.rcnt) ∨ (t.ipos = s.ipos + 1 ∧ t.rcnt = s.rcnt + 1)) ∧
    (i = .cinit → s.fcode = .clear → t.rcnt = 0) ∧
    ((∀ b, i ≠ .encbit b) → i ≠ .decbit → i ≠ .cinit → t.rcnt = s.rcnt)

/-! ## Faults and legality (spec/60_exceptions.md) -/

/-- The coder states in which R182 says a legal command may end. -/
def endsIn (i : Instr) (s t : State) : Prop :=
  match i with
  | .cinit => t.cstate = .ready
  | .setnb _ => t.cstate = s.cstate
  | .flush => t.cstate = s.cstate
  | .predict => t.cstate = s.cstate
  | .update => t.cstate = s.cstate
  | .encbit _ => t.cstate = .enc
  | .decbit => t.cstate = .dec ∨ t.cstate = .ended
  | .finish => t.cstate = .fin
  | .seed => t.cstate = .dec ∨ t.cstate = .seederr

/-- R182: which command is legal when, and which fault wins, in a sound state: a faulted block ignores every word; an
illegal word gives code 1; every other command answers a next state with the code that the table gives; one that
faults changes `FCODE` only, and a legal one leaves `CSTATE` as the table says. No command but `CINIT` turns a coder
that encodes into one that decodes, or the reverse. -/
def Obligations.LegalityTable : Prop :=
  (∀ s : State, s.fcode ≠ .clear → ∀ w, execWord w s = .next s) ∧
  (∀ s : State, s.fcode = .clear → ∀ w, (∀ i, decode w ≠ .ok i) →
    execWord w s = .next { s with fcode := .illegalCommand }) ∧
  (∀ (i : Instr) (s : State), Inv s → s.fcode = .clear →
    ∃ t, exec i s = .next t ∧ t.fcode = legality i s ∧
      (legality i s ≠ .clear → t = { s with fcode := legality i s }) ∧
      (legality i s = .clear → endsIn i s t)) ∧
  ∀ (i : Instr) (s t : State), exec i s = .next t → i ≠ .cinit →
    (s.cstate = .enc → t.cstate = .enc ∨ t.cstate = .fin) ∧
    (s.cstate = .dec → t.cstate = .dec ∨ t.cstate = .ended)

/-- R180: a command that leaves a fault code behind has changed nothing else, in every state. -/
def Obligations.FaultsArePrecise : Prop :=
  ∀ (i : Instr) (s t : State), exec i s = .next t → t.fcode ≠ .clear → t = { s with fcode := t.fcode }

/-! ## Who writes what (spec/10_state.md) -/

/-- R20 to R24, R26, R27, R30 to R34: which commands can change the interval, `VAL`, `BIT`, `BV`, `P`, `PV`, `CSTATE`,
`GV`, the node file, `CN`, `CUR`, `NB` and the streams, and to what the flags change. -/
def Obligations.WritersOfTheRegisters : Prop :=
  ∀ (i : Instr) (s t : State), exec i s = .next t →
    (t.min ≠ s.min → i = .cinit ∨ (∃ b, i = .encbit b) ∨ i = .decbit ∨ i = .finish) ∧
    (t.max ≠ s.max → i = .cinit ∨ (∃ b, i = .encbit b) ∨ i = .decbit) ∧
    (t.val ≠ s.val → i = .cinit ∨ i = .decbit ∨ i = .seed) ∧
    (t.bit ≠ s.bit → (i = .cinit ∧ t.bit = false) ∨ i = .encbit t.bit ∨ i = .decbit) ∧
    (t.bv ≠ s.bv → ((i = .cinit ∨ i = .update) ∧ t.bv = false) ∨
      (((∃ b, i = .encbit b) ∨ i = .decbit) ∧ t.bv = true)) ∧
    (t.p ≠ s.p → i = .predict) ∧
    (t.pv ≠ s.pv → (i = .predict ∧ t.pv = true) ∨
      (((∃ b, i = .encbit b) ∨ i = .decbit ∨ i = .update ∨ i = .flush ∨ ∃ n, i = .setnb n) ∧ t.pv = false)) ∧
    (t.cstate ≠ s.cstate → i = .cinit ∨ (∃ b, i = .encbit b) ∨ i = .decbit ∨ i = .finish ∨ i = .seed) ∧
    (t.gv ≠ s.gv → (i = .flush ∧ t.gv = true) ∨ (∃ n, i = .setnb n) ∧ t.gv = false) ∧
    (t.nf ≠ s.nf → i = .flush ∨ i = .update) ∧
    (t.cn ≠ s.cn → i = .flush ∨ i = .update) ∧
    (t.cur ≠ s.cur → i = .flush ∨ i = .update) ∧
    (t.nb ≠ s.nb → ∃ n, i = .setnb n ∧ 1 ≤ n ∧ n ≤ 983040 ∧ t.nb.toNat = n) ∧
    (t.output ≠ s.output → (∃ b, i = .encbit b) ∨ i = .finish) ∧
    (t.ipos ≠ s.ipos → i = .decbit ∨ i = .seed) ∧
    t.input = s.input ∧ t.pending = s.pending ∧ t.replies = s.replies

/-! ## Invariants (spec/10_state.md section 8) -/

/-- The state after reset is sound (R39, R40 to R47). -/
def Obligations.ResetIsSound : Prop := Inv State.reset

/-- R40 to R45 and R47: every step from a sound state leads to a sound state. -/
def Obligations.StepKeepsTheInvariant : Prop :=
  ∀ s t : State, Inv s → step s = .next t → Inv t

/-- R40, R41: the coder alone keeps its interval sound, for every probability in `[0, 1]`, whatever the graph. -/
def Obligations.CommandsKeepTheIntervalSound : Prop :=
  ∀ (i : Instr) (s t : State), IntervalOk s → (s.pv = true → 0 ≤ s.p ∧ s.p ≤ 1) → exec i s = .next t → IntervalOk t

/-- R42 to R45: `UPDATE` keeps the state graph sound, cloning and flushing included, whatever the coder does. -/
def Obligations.UpdateKeepsTheGraphSound : Prop :=
  ∀ s t : State, s.nf.wf = true → s.nb.toNat ≤ 983040 → GraphOk s → exec .update s = .next t → GraphOk t

/-- Every step keeps the canonical form of the node file, from every state in which it has it. -/
def Obligations.StepKeepsTheNodeFileCanonical : Prop :=
  ∀ s t : State, s.nf.wf = true → step s = .next t → t.nf.wf = true

/-- R113: in a sound state with a valid graph the overflow branch of `UPDATE` is not taken: the cursor is below the
budget when the command starts, and still when it ends. -/
def Obligations.PoolOverflowIsUnreachable : Prop :=
  ∀ s t : State, Inv s → s.gv = true → exec .update s = .next t →
    poolOverflows s = false ∧ poolOverflows t = false ∧ t.gv = true

/-- R46: in `DEC` and `ENDED`, `VAL` is the last three coded bytes consumed; every command keeps that. -/
def Obligations.ValIsTheLastThreeBytes : Prop :=
  ∀ (i : Instr) (s t : State), ValHoldsLastBytes s → exec i s = .next t → ValHoldsLastBytes t

/-! ## What cannot be observed, and what the two directions share -/

/-- States that differ only in what R38 and R23 call unobservable: `P` while `PV = 0`, and the contents of node
addresses not in use. -/
def sameButUnobservable (s t : State) : Prop :=
  t = { s with nf := t.nf, p := t.p } ∧ (s.pv = true → t.p = s.p) ∧
    (s.gv = true → ∀ a, InUse s.cur.toNat a → nodeAt t.nf a = nodeAt s.nf a)

/-- R38: what `NF` holds while `GV = 0`, what free pool slots hold, and what `P` holds while `PV = 0` makes no
difference to any step: two sound states that differ only there step alike and differ only there after. -/
def Obligations.UnspecifiedContentsAreUnobservable : Prop :=
  ∀ s t s' : State, Inv s → Inv t → sameButUnobservable s t → step s = .next s' →
    ∃ t', step t = .next t' ∧ sameButUnobservable s' t'

/-- D25 (R110, R150, R132 to R135): the predictor commands do not touch the coder and the coder commands do not touch
the predictor. -/
def Obligations.CoderAndPredictorAreSeparate : Prop :=
  ∀ (i : Instr) (s t : State), exec i s = .next t →
    (i = .flush ∨ i = .predict ∨ i = .update ∨ (∃ n, i = .setnb n) →
      t.min = s.min ∧ t.max = s.max ∧ t.val = s.val ∧ t.rcnt = s.rcnt ∧ t.cstate = s.cstate ∧ t.bit = s.bit ∧
        t.ipos = s.ipos ∧ t.output = s.output) ∧
    (i = .cinit ∨ (∃ b, i = .encbit b) ∨ i = .decbit ∨ i = .finish ∨ i = .seed →
      t.nf = s.nf ∧ t.cn = s.cn ∧ t.cur = s.cur ∧ t.nb = s.nb ∧ t.gv = s.gv ∧ t.p = s.p)

/-- The encoder and the decoder at the same plain-bit position (R163). -/
def mirrored (e d : State) : Prop :=
  e.min = d.min ∧ e.max = d.max ∧ e.rcnt = d.rcnt ∧ e.nf = d.nf ∧ e.cn = d.cn ∧ e.cur = d.cur ∧ e.nb = d.nb ∧
    e.gv = true ∧ d.gv = true ∧ e.fcode = .clear ∧ d.fcode = .clear ∧
    (e.cstate = .ready ∨ e.cstate = .enc) ∧ d.cstate = .dec

/-- R163: the mirror of one plain bit: if the decoder's `PREDICT`, `DECBIT` give a bit without running out of input,
then `PREDICT`, `ENCBIT` of that bit, `UPDATE` on the encoder side and `UPDATE` on the decoder side all complete and
leave the two sides mirrored, with the same probability used. -/
def Obligations.DecoderMirrorsEncoder : Prop :=
  ∀ e d d₁ : State, Inv e → Inv d → mirrored e d → runCommands [.predict, .decbit] d = .next d₁ → d₁.cstate = .dec →
    ∃ e' d', runCommands (pseudoCbit d₁.bit) e = .next e' ∧ exec .update d₁ = .next d' ∧ mirrored e' d' ∧ e'.p = d'.p

/-! ## The host sequences (spec/43_sequences.md) -/

/-- R164, R68: eight decoded bits, most significant first, make up the plain byte they came from. -/
def Obligations.PlainBitsReassembleTheByte : Prop :=
  ∀ v : Byte, (bitsMsbFirst v).foldl (fun n b => 2 * n + b.toNat) 0 = v.toNat ∧ (bitsMsbFirst v).length = 8

/-- R160: from a sound state that is not faulted COMPRESS never faults, ends in `FIN`, and appends `RCNT + 3` bytes
(counted modulo `2^32`, as `RCNT` wraps), for every input, cadence and budget. That a cadence of interval 0 makes no
check is the model's choice (log entry 21). -/
def Obligations.CompressCompletes : Prop :=
  ∀ (cad : Config.Cadence) (plain : List Byte) (s : State), Inv s → s.fcode = .clear →
    ∃ t, compress cad plain s = .next t ∧ t.fcode = .clear ∧ t.cstate = .fin ∧
      ∃ n, (codedStream s t).length = n + 3 ∧ t.output = s.output ++ codedStream s t ∧ n % 2 ^ 32 = t.rcnt.toNat

/-- R168: COMPRESS of the empty input is the three sentinel bytes `FF FF FF`, and DECOMPRESS of these is empty. -/
def Obligations.EmptyInputIsTheSentinelAlone : Prop :=
  ∀ (cad : Config.Cadence) (s : State), s.fcode = .clear →
    (∃ t, compress cad [] s = .next t ∧ codedStream s t = [0xFF, 0xFF, 0xFF]) ∧
    ∀ fuel, 1 ≤ fuel → ∃ t, decompress cad fuel [0xFF, 0xFF, 0xFF] s = .next ⟨[], .terminated, t⟩

/-- R188, R185, R186: DECOMPRESS of any byte sequence ends without a fault: it cannot run for ever on a finite `IN`.
It reports a seed failure exactly on fewer than three bytes. The bound on the plain bytes, `2^24` for each coded byte,
is the model's (log entry 17), and so is what a cadence of interval 0 does (log entry 21). -/
def Obligations.DecompressEnds : Prop :=
  ∀ (cad : Config.Cadence) (coded : List Byte) (fuel : Nat) (s : State), Inv s → s.fcode = .clear →
    2 ^ 24 * (coded.length + 1) ≤ fuel →
    ∃ d, decompress cad fuel coded s = .next d ∧ d.how ≠ .outOfFuel ∧ d.state.fcode = .clear ∧
      (d.how = .seedFailure ↔ coded.length < 3)

/-- R210: the round trip fails: COMPRESS of the one byte `FF` from reset is `FF FF FF`, the stream of the empty input,
so DECOMPRESS gives back the empty sequence. -/
def Obligations.TrailingFFIsLost : Prop :=
  ∃ t, compress Config.Cadence.reference [0xFF] State.reset = .next t ∧ codedStream State.reset t = [0xFF, 0xFF, 0xFF] ∧
    ∀ fuel, 1 ≤ fuel →
      ∃ u, decompress Config.Cadence.reference fuel (codedStream State.reset t) State.reset = .next ⟨[], .terminated, u⟩
end

