-- ==== Sys2Proof/Laws/State.lean ====
section
/-! SUPPORT. What each named update of the state does to each field: one lemma per field per update, true by `rfl`. -/

namespace Sys2Proof.Laws

open Sys2Proof.Machine

/-! `State.setNode`. -/

@[simp] theorem setNode_min (s : State) (a : NodeAddr) (m : Node) : (s.setNode a m).min = s.min := rfl
@[simp] theorem setNode_max (s : State) (a : NodeAddr) (m : Node) : (s.setNode a m).max = s.max := rfl
@[simp] theorem setNode_val (s : State) (a : NodeAddr) (m : Node) : (s.setNode a m).val = s.val := rfl
@[simp] theorem setNode_bit (s : State) (a : NodeAddr) (m : Node) : (s.setNode a m).bit = s.bit := rfl
@[simp] theorem setNode_bv (s : State) (a : NodeAddr) (m : Node) : (s.setNode a m).bv = s.bv := rfl
@[simp] theorem setNode_p (s : State) (a : NodeAddr) (m : Node) : (s.setNode a m).p = s.p := rfl
@[simp] theorem setNode_pv (s : State) (a : NodeAddr) (m : Node) : (s.setNode a m).pv = s.pv := rfl
@[simp] theorem setNode_gv (s : State) (a : NodeAddr) (m : Node) : (s.setNode a m).gv = s.gv := rfl
@[simp] theorem setNode_cstate (s : State) (a : NodeAddr) (m : Node) : (s.setNode a m).cstate = s.cstate := rfl
@[simp] theorem setNode_fcode (s : State) (a : NodeAddr) (m : Node) : (s.setNode a m).fcode = s.fcode := rfl
@[simp] theorem setNode_rcnt (s : State) (a : NodeAddr) (m : Node) : (s.setNode a m).rcnt = s.rcnt := rfl
@[simp] theorem setNode_cn (s : State) (a : NodeAddr) (m : Node) : (s.setNode a m).cn = s.cn := rfl
@[simp] theorem setNode_cur (s : State) (a : NodeAddr) (m : Node) : (s.setNode a m).cur = s.cur := rfl
@[simp] theorem setNode_nb (s : State) (a : NodeAddr) (m : Node) : (s.setNode a m).nb = s.nb := rfl
@[simp] theorem setNode_nf (s : State) (a : NodeAddr) (m : Node) : (s.setNode a m).nf = putNode a.toNat m s.nf := rfl
@[simp] theorem setNode_input (s : State) (a : NodeAddr) (m : Node) : (s.setNode a m).input = s.input := rfl
@[simp] theorem setNode_ipos (s : State) (a : NodeAddr) (m : Node) : (s.setNode a m).ipos = s.ipos := rfl
@[simp] theorem setNode_output (s : State) (a : NodeAddr) (m : Node) : (s.setNode a m).output = s.output := rfl
@[simp] theorem setNode_pending (s : State) (a : NodeAddr) (m : Node) : (s.setNode a m).pending = s.pending := rfl
@[simp] theorem setNode_replies (s : State) (a : NodeAddr) (m : Node) : (s.setNode a m).replies = s.replies := rfl

/-! `flushGraph`. -/

@[simp] theorem flushGraph_min (s : State) : (flushGraph s).min = s.min := rfl
@[simp] theorem flushGraph_max (s : State) : (flushGraph s).max = s.max := rfl
@[simp] theorem flushGraph_val (s : State) : (flushGraph s).val = s.val := rfl
@[simp] theorem flushGraph_bit (s : State) : (flushGraph s).bit = s.bit := rfl
@[simp] theorem flushGraph_bv (s : State) : (flushGraph s).bv = s.bv := rfl
@[simp] theorem flushGraph_p (s : State) : (flushGraph s).p = s.p := rfl
@[simp] theorem flushGraph_pv (s : State) : (flushGraph s).pv = s.pv := rfl
@[simp] theorem flushGraph_gv (s : State) : (flushGraph s).gv = s.gv := rfl
@[simp] theorem flushGraph_cstate (s : State) : (flushGraph s).cstate = s.cstate := rfl
@[simp] theorem flushGraph_fcode (s : State) : (flushGraph s).fcode = s.fcode := rfl
@[simp] theorem flushGraph_rcnt (s : State) : (flushGraph s).rcnt = s.rcnt := rfl
@[simp] theorem flushGraph_cn (s : State) : (flushGraph s).cn = BitVec.ofNat 20 (root 0) := rfl
@[simp] theorem flushGraph_cur (s : State) : (flushGraph s).cur = 0 := rfl
@[simp] theorem flushGraph_nb (s : State) : (flushGraph s).nb = s.nb := rfl
@[simp] theorem flushGraph_nf (s : State) : (flushGraph s).nf = s.nf.filter fun e => !isBase e.1 := rfl
@[simp] theorem flushGraph_input (s : State) : (flushGraph s).input = s.input := rfl
@[simp] theorem flushGraph_ipos (s : State) : (flushGraph s).ipos = s.ipos := rfl
@[simp] theorem flushGraph_output (s : State) : (flushGraph s).output = s.output := rfl
@[simp] theorem flushGraph_pending (s : State) : (flushGraph s).pending = s.pending := rfl
@[simp] theorem flushGraph_replies (s : State) : (flushGraph s).replies = s.replies := rfl

/-! `outByte`. -/

@[simp] theorem outByte_min (s : State) (v : Byte) : (outByte v s).min = s.min := rfl
@[simp] theorem outByte_max (s : State) (v : Byte) : (outByte v s).max = s.max := rfl
@[simp] theorem outByte_val (s : State) (v : Byte) : (outByte v s).val = s.val := rfl
@[simp] theorem outByte_bit (s : State) (v : Byte) : (outByte v s).bit = s.bit := rfl
@[simp] theorem outByte_bv (s : State) (v : Byte) : (outByte v s).bv = s.bv := rfl
@[simp] theorem outByte_p (s : State) (v : Byte) : (outByte v s).p = s.p := rfl
@[simp] theorem outByte_pv (s : State) (v : Byte) : (outByte v s).pv = s.pv := rfl
@[simp] theorem outByte_gv (s : State) (v : Byte) : (outByte v s).gv = s.gv := rfl
@[simp] theorem outByte_cstate (s : State) (v : Byte) : (outByte v s).cstate = s.cstate := rfl
@[simp] theorem outByte_fcode (s : State) (v : Byte) : (outByte v s).fcode = s.fcode := rfl
@[simp] theorem outByte_rcnt (s : State) (v : Byte) : (outByte v s).rcnt = s.rcnt := rfl
@[simp] theorem outByte_cn (s : State) (v : Byte) : (outByte v s).cn = s.cn := rfl
@[simp] theorem outByte_cur (s : State) (v : Byte) : (outByte v s).cur = s.cur := rfl
@[simp] theorem outByte_nb (s : State) (v : Byte) : (outByte v s).nb = s.nb := rfl
@[simp] theorem outByte_nf (s : State) (v : Byte) : (outByte v s).nf = s.nf := rfl
@[simp] theorem outByte_input (s : State) (v : Byte) : (outByte v s).input = s.input := rfl
@[simp] theorem outByte_ipos (s : State) (v : Byte) : (outByte v s).ipos = s.ipos := rfl
@[simp] theorem outByte_output (s : State) (v : Byte) : (outByte v s).output = s.output ++ [v] := rfl
@[simp] theorem outByte_pending (s : State) (v : Byte) : (outByte v s).pending = s.pending := rfl
@[simp] theorem outByte_replies (s : State) (v : Byte) : (outByte v s).replies = s.replies := rfl

/-! `shiftInterval`. -/

@[simp] theorem shiftInterval_min (s : State) : (shiftInterval s).min = BitVec.ofNat 24 (shiftByte s.min.toNat) := rfl
@[simp] theorem shiftInterval_max (s : State) : (shiftInterval s).max = BitVec.ofNat 25 (if shiftByte s.min.toNat ≥ shiftByte s.max.toNat then Config.top else shiftByte s.max.toNat) := rfl
@[simp] theorem shiftInterval_val (s : State) : (shiftInterval s).val = s.val := rfl
@[simp] theorem shiftInterval_bit (s : State) : (shiftInterval s).bit = s.bit := rfl
@[simp] theorem shiftInterval_bv (s : State) : (shiftInterval s).bv = s.bv := rfl
@[simp] theorem shiftInterval_p (s : State) : (shiftInterval s).p = s.p := rfl
@[simp] theorem shiftInterval_pv (s : State) : (shiftInterval s).pv = s.pv := rfl
@[simp] theorem shiftInterval_gv (s : State) : (shiftInterval s).gv = s.gv := rfl
@[simp] theorem shiftInterval_cstate (s : State) : (shiftInterval s).cstate = s.cstate := rfl
@[simp] theorem shiftInterval_fcode (s : State) : (shiftInterval s).fcode = s.fcode := rfl
@[simp] theorem shiftInterval_rcnt (s : State) : (shiftInterval s).rcnt = s.rcnt := rfl
@[simp] theorem shiftInterval_cn (s : State) : (shiftInterval s).cn = s.cn := rfl
@[simp] theorem shiftInterval_cur (s : State) : (shiftInterval s).cur = s.cur := rfl
@[simp] theorem shiftInterval_nb (s : State) : (shiftInterval s).nb = s.nb := rfl
@[simp] theorem shiftInterval_nf (s : State) : (shiftInterval s).nf = s.nf := rfl
@[simp] theorem shiftInterval_input (s : State) : (shiftInterval s).input = s.input := rfl
@[simp] theorem shiftInterval_ipos (s : State) : (shiftInterval s).ipos = s.ipos := rfl
@[simp] theorem shiftInterval_output (s : State) : (shiftInterval s).output = s.output := rfl
@[simp] theorem shiftInterval_pending (s : State) : (shiftInterval s).pending = s.pending := rfl
@[simp] theorem shiftInterval_replies (s : State) : (shiftInterval s).replies = s.replies := rfl

/-! `narrow`. -/

@[simp] theorem narrow_min (s : State) (b : Bool) (m : Nat) : (narrow b m s).min = if b then BitVec.ofNat 24 m else s.min := rfl
@[simp] theorem narrow_max (s : State) (b : Bool) (m : Nat) : (narrow b m s).max = if b then s.max else BitVec.ofNat 25 m := rfl
@[simp] theorem narrow_val (s : State) (b : Bool) (m : Nat) : (narrow b m s).val = s.val := rfl
@[simp] theorem narrow_bit (s : State) (b : Bool) (m : Nat) : (narrow b m s).bit = s.bit := rfl
@[simp] theorem narrow_bv (s : State) (b : Bool) (m : Nat) : (narrow b m s).bv = s.bv := rfl
@[simp] theorem narrow_p (s : State) (b : Bool) (m : Nat) : (narrow b m s).p = s.p := rfl
@[simp] theorem narrow_pv (s : State) (b : Bool) (m : Nat) : (narrow b m s).pv = s.pv := rfl
@[simp] theorem narrow_gv (s : State) (b : Bool) (m : Nat) : (narrow b m s).gv = s.gv := rfl
@[simp] theorem narrow_cstate (s : State) (b : Bool) (m : Nat) : (narrow b m s).cstate = s.cstate := rfl
@[simp] theorem narrow_fcode (s : State) (b : Bool) (m : Nat) : (narrow b m s).fcode = s.fcode := rfl
@[simp] theorem narrow_rcnt (s : State) (b : Bool) (m : Nat) : (narrow b m s).rcnt = s.rcnt := rfl
@[simp] theorem narrow_cn (s : State) (b : Bool) (m : Nat) : (narrow b m s).cn = s.cn := rfl
@[simp] theorem narrow_cur (s : State) (b : Bool) (m : Nat) : (narrow b m s).cur = s.cur := rfl
@[simp] theorem narrow_nb (s : State) (b : Bool) (m : Nat) : (narrow b m s).nb = s.nb := rfl
@[simp] theorem narrow_nf (s : State) (b : Bool) (m : Nat) : (narrow b m s).nf = s.nf := rfl
@[simp] theorem narrow_input (s : State) (b : Bool) (m : Nat) : (narrow b m s).input = s.input := rfl
@[simp] theorem narrow_ipos (s : State) (b : Bool) (m : Nat) : (narrow b m s).ipos = s.ipos := rfl
@[simp] theorem narrow_output (s : State) (b : Bool) (m : Nat) : (narrow b m s).output = s.output := rfl
@[simp] theorem narrow_pending (s : State) (b : Bool) (m : Nat) : (narrow b m s).pending = s.pending := rfl
@[simp] theorem narrow_replies (s : State) (b : Bool) (m : Nat) : (narrow b m s).replies = s.replies := rfl

/-! `correct`. -/

@[simp] theorem correct_min (s : State) (b : Bool) : (correct b s).min = s.min := rfl
@[simp] theorem correct_max (s : State) (b : Bool) : (correct b s).max = if b then BitVec.ofNat 25 (s.max.toNat - 1) else s.max := rfl
@[simp] theorem correct_val (s : State) (b : Bool) : (correct b s).val = s.val := rfl
@[simp] theorem correct_bit (s : State) (b : Bool) : (correct b s).bit = s.bit := rfl
@[simp] theorem correct_bv (s : State) (b : Bool) : (correct b s).bv = s.bv := rfl
@[simp] theorem correct_p (s : State) (b : Bool) : (correct b s).p = s.p := rfl
@[simp] theorem correct_pv (s : State) (b : Bool) : (correct b s).pv = s.pv := rfl
@[simp] theorem correct_gv (s : State) (b : Bool) : (correct b s).gv = s.gv := rfl
@[simp] theorem correct_cstate (s : State) (b : Bool) : (correct b s).cstate = s.cstate := rfl
@[simp] theorem correct_fcode (s : State) (b : Bool) : (correct b s).fcode = s.fcode := rfl
@[simp] theorem correct_rcnt (s : State) (b : Bool) : (correct b s).rcnt = s.rcnt := rfl
@[simp] theorem correct_cn (s : State) (b : Bool) : (correct b s).cn = s.cn := rfl
@[simp] theorem correct_cur (s : State) (b : Bool) : (correct b s).cur = s.cur := rfl
@[simp] theorem correct_nb (s : State) (b : Bool) : (correct b s).nb = s.nb := rfl
@[simp] theorem correct_nf (s : State) (b : Bool) : (correct b s).nf = s.nf := rfl
@[simp] theorem correct_input (s : State) (b : Bool) : (correct b s).input = s.input := rfl
@[simp] theorem correct_ipos (s : State) (b : Bool) : (correct b s).ipos = s.ipos := rfl
@[simp] theorem correct_output (s : State) (b : Bool) : (correct b s).output = s.output := rfl
@[simp] theorem correct_pending (s : State) (b : Bool) : (correct b s).pending = s.pending := rfl
@[simp] theorem correct_replies (s : State) (b : Bool) : (correct b s).replies = s.replies := rfl

/-! `countStep`. -/

@[simp] theorem countStep_min (s : State) : (countStep s).min = s.min := rfl
@[simp] theorem countStep_max (s : State) : (countStep s).max = s.max := rfl
@[simp] theorem countStep_val (s : State) : (countStep s).val = s.val := rfl
@[simp] theorem countStep_bit (s : State) : (countStep s).bit = s.bit := rfl
@[simp] theorem countStep_bv (s : State) : (countStep s).bv = s.bv := rfl
@[simp] theorem countStep_p (s : State) : (countStep s).p = s.p := rfl
@[simp] theorem countStep_pv (s : State) : (countStep s).pv = s.pv := rfl
@[simp] theorem countStep_gv (s : State) : (countStep s).gv = s.gv := rfl
@[simp] theorem countStep_cstate (s : State) : (countStep s).cstate = s.cstate := rfl
@[simp] theorem countStep_fcode (s : State) : (countStep s).fcode = s.fcode := rfl
@[simp] theorem countStep_rcnt (s : State) : (countStep s).rcnt = s.rcnt + 1 := rfl
@[simp] theorem countStep_cn (s : State) : (countStep s).cn = s.cn := rfl
@[simp] theorem countStep_cur (s : State) : (countStep s).cur = s.cur := rfl
@[simp] theorem countStep_nb (s : State) : (countStep s).nb = s.nb := rfl
@[simp] theorem countStep_nf (s : State) : (countStep s).nf = s.nf := rfl
@[simp] theorem countStep_input (s : State) : (countStep s).input = s.input := rfl
@[simp] theorem countStep_ipos (s : State) : (countStep s).ipos = s.ipos := rfl
@[simp] theorem countStep_output (s : State) : (countStep s).output = s.output := rfl
@[simp] theorem countStep_pending (s : State) : (countStep s).pending = s.pending := rfl
@[simp] theorem countStep_replies (s : State) : (countStep s).replies = s.replies := rfl

/-! `foldByte`. -/

@[simp] theorem foldByte_min (s : State) (v : Byte) : (foldByte v s).min = s.min := rfl
@[simp] theorem foldByte_max (s : State) (v : Byte) : (foldByte v s).max = s.max := rfl
@[simp] theorem foldByte_val (s : State) (v : Byte) : (foldByte v s).val = BitVec.ofNat 24 (shiftByte s.val.toNat ||| v.toNat) := rfl
@[simp] theorem foldByte_bit (s : State) (v : Byte) : (foldByte v s).bit = s.bit := rfl
@[simp] theorem foldByte_bv (s : State) (v : Byte) : (foldByte v s).bv = s.bv := rfl
@[simp] theorem foldByte_p (s : State) (v : Byte) : (foldByte v s).p = s.p := rfl
@[simp] theorem foldByte_pv (s : State) (v : Byte) : (foldByte v s).pv = s.pv := rfl
@[simp] theorem foldByte_gv (s : State) (v : Byte) : (foldByte v s).gv = s.gv := rfl
@[simp] theorem foldByte_cstate (s : State) (v : Byte) : (foldByte v s).cstate = s.cstate := rfl
@[simp] theorem foldByte_fcode (s : State) (v : Byte) : (foldByte v s).fcode = s.fcode := rfl
@[simp] theorem foldByte_rcnt (s : State) (v : Byte) : (foldByte v s).rcnt = s.rcnt := rfl
@[simp] theorem foldByte_cn (s : State) (v : Byte) : (foldByte v s).cn = s.cn := rfl
@[simp] theorem foldByte_cur (s : State) (v : Byte) : (foldByte v s).cur = s.cur := rfl
@[simp] theorem foldByte_nb (s : State) (v : Byte) : (foldByte v s).nb = s.nb := rfl
@[simp] theorem foldByte_nf (s : State) (v : Byte) : (foldByte v s).nf = s.nf := rfl
@[simp] theorem foldByte_input (s : State) (v : Byte) : (foldByte v s).input = s.input := rfl
@[simp] theorem foldByte_ipos (s : State) (v : Byte) : (foldByte v s).ipos = s.ipos := rfl
@[simp] theorem foldByte_output (s : State) (v : Byte) : (foldByte v s).output = s.output := rfl
@[simp] theorem foldByte_pending (s : State) (v : Byte) : (foldByte v s).pending = s.pending := rfl
@[simp] theorem foldByte_replies (s : State) (v : Byte) : (foldByte v s).replies = s.replies := rfl

/-! `latchBit`. -/

@[simp] theorem latchBit_min (s : State) (b : Bool) : (latchBit b s).min = s.min := rfl
@[simp] theorem latchBit_max (s : State) (b : Bool) : (latchBit b s).max = s.max := rfl
@[simp] theorem latchBit_val (s : State) (b : Bool) : (latchBit b s).val = s.val := rfl
@[simp] theorem latchBit_bit (s : State) (b : Bool) : (latchBit b s).bit = b := rfl
@[simp] theorem latchBit_bv (s : State) (b : Bool) : (latchBit b s).bv = true := rfl
@[simp] theorem latchBit_p (s : State) (b : Bool) : (latchBit b s).p = s.p := rfl
@[simp] theorem latchBit_pv (s : State) (b : Bool) : (latchBit b s).pv = false := rfl
@[simp] theorem latchBit_gv (s : State) (b : Bool) : (latchBit b s).gv = s.gv := rfl
@[simp] theorem latchBit_cstate (s : State) (b : Bool) : (latchBit b s).cstate = s.cstate := rfl
@[simp] theorem latchBit_fcode (s : State) (b : Bool) : (latchBit b s).fcode = s.fcode := rfl
@[simp] theorem latchBit_rcnt (s : State) (b : Bool) : (latchBit b s).rcnt = s.rcnt := rfl
@[simp] theorem latchBit_cn (s : State) (b : Bool) : (latchBit b s).cn = s.cn := rfl
@[simp] theorem latchBit_cur (s : State) (b : Bool) : (latchBit b s).cur = s.cur := rfl
@[simp] theorem latchBit_nb (s : State) (b : Bool) : (latchBit b s).nb = s.nb := rfl
@[simp] theorem latchBit_nf (s : State) (b : Bool) : (latchBit b s).nf = s.nf := rfl
@[simp] theorem latchBit_input (s : State) (b : Bool) : (latchBit b s).input = s.input := rfl
@[simp] theorem latchBit_ipos (s : State) (b : Bool) : (latchBit b s).ipos = s.ipos := rfl
@[simp] theorem latchBit_output (s : State) (b : Bool) : (latchBit b s).output = s.output := rfl
@[simp] theorem latchBit_pending (s : State) (b : Bool) : (latchBit b s).pending = s.pending := rfl
@[simp] theorem latchBit_replies (s : State) (b : Bool) : (latchBit b s).replies = s.replies := rfl

/-! `raiseFault`. -/

@[simp] theorem raiseFault_min (s : State) (c : FaultCode) : (raiseFault c s).min = s.min := rfl
@[simp] theorem raiseFault_max (s : State) (c : FaultCode) : (raiseFault c s).max = s.max := rfl
@[simp] theorem raiseFault_val (s : State) (c : FaultCode) : (raiseFault c s).val = s.val := rfl
@[simp] theorem raiseFault_bit (s : State) (c : FaultCode) : (raiseFault c s).bit = s.bit := rfl
@[simp] theorem raiseFault_bv (s : State) (c : FaultCode) : (raiseFault c s).bv = s.bv := rfl
@[simp] theorem raiseFault_p (s : State) (c : FaultCode) : (raiseFault c s).p = s.p := rfl
@[simp] theorem raiseFault_pv (s : State) (c : FaultCode) : (raiseFault c s).pv = s.pv := rfl
@[simp] theorem raiseFault_gv (s : State) (c : FaultCode) : (raiseFault c s).gv = s.gv := rfl
@[simp] theorem raiseFault_cstate (s : State) (c : FaultCode) : (raiseFault c s).cstate = s.cstate := rfl
@[simp] theorem raiseFault_fcode (s : State) (c : FaultCode) : (raiseFault c s).fcode = c := rfl
@[simp] theorem raiseFault_rcnt (s : State) (c : FaultCode) : (raiseFault c s).rcnt = s.rcnt := rfl
@[simp] theorem raiseFault_cn (s : State) (c : FaultCode) : (raiseFault c s).cn = s.cn := rfl
@[simp] theorem raiseFault_cur (s : State) (c : FaultCode) : (raiseFault c s).cur = s.cur := rfl
@[simp] theorem raiseFault_nb (s : State) (c : FaultCode) : (raiseFault c s).nb = s.nb := rfl
@[simp] theorem raiseFault_nf (s : State) (c : FaultCode) : (raiseFault c s).nf = s.nf := rfl
@[simp] theorem raiseFault_input (s : State) (c : FaultCode) : (raiseFault c s).input = s.input := rfl
@[simp] theorem raiseFault_ipos (s : State) (c : FaultCode) : (raiseFault c s).ipos = s.ipos := rfl
@[simp] theorem raiseFault_output (s : State) (c : FaultCode) : (raiseFault c s).output = s.output := rfl
@[simp] theorem raiseFault_pending (s : State) (c : FaultCode) : (raiseFault c s).pending = s.pending := rfl
@[simp] theorem raiseFault_replies (s : State) (c : FaultCode) : (raiseFault c s).replies = s.replies := rfl

/-! `applyReset`. -/

@[simp] theorem applyReset_min (s : State) : (applyReset s).min = 0 := rfl
@[simp] theorem applyReset_max (s : State) : (applyReset s).max = 0x1000000 := rfl
@[simp] theorem applyReset_val (s : State) : (applyReset s).val = 0 := rfl
@[simp] theorem applyReset_bit (s : State) : (applyReset s).bit = false := rfl
@[simp] theorem applyReset_bv (s : State) : (applyReset s).bv = false := rfl
@[simp] theorem applyReset_p (s : State) : (applyReset s).p = s.p := rfl
@[simp] theorem applyReset_pv (s : State) : (applyReset s).pv = false := rfl
@[simp] theorem applyReset_gv (s : State) : (applyReset s).gv = false := rfl
@[simp] theorem applyReset_cstate (s : State) : (applyReset s).cstate = .ready := rfl
@[simp] theorem applyReset_fcode (s : State) : (applyReset s).fcode = .clear := rfl
@[simp] theorem applyReset_rcnt (s : State) : (applyReset s).rcnt = 0 := rfl
@[simp] theorem applyReset_cn (s : State) : (applyReset s).cn = 0x00001 := rfl
@[simp] theorem applyReset_cur (s : State) : (applyReset s).cur = 0 := rfl
@[simp] theorem applyReset_nb (s : State) : (applyReset s).nb = 524269 := rfl
@[simp] theorem applyReset_nf (s : State) : (applyReset s).nf = s.nf := rfl
@[simp] theorem applyReset_input (s : State) : (applyReset s).input = s.input := rfl
@[simp] theorem applyReset_ipos (s : State) : (applyReset s).ipos = s.ipos := rfl
@[simp] theorem applyReset_output (s : State) : (applyReset s).output = s.output := rfl
@[simp] theorem applyReset_pending (s : State) : (applyReset s).pending = s.pending := rfl
@[simp] theorem applyReset_replies (s : State) : (applyReset s).replies = s.replies := rfl

/-! `supplyInput`. -/

@[simp] theorem supplyInput_min (s : State) (bytes : List Byte) : (supplyInput bytes s).min = s.min := rfl
@[simp] theorem supplyInput_max (s : State) (bytes : List Byte) : (supplyInput bytes s).max = s.max := rfl
@[simp] theorem supplyInput_val (s : State) (bytes : List Byte) : (supplyInput bytes s).val = s.val := rfl
@[simp] theorem supplyInput_bit (s : State) (bytes : List Byte) : (supplyInput bytes s).bit = s.bit := rfl
@[simp] theorem supplyInput_bv (s : State) (bytes : List Byte) : (supplyInput bytes s).bv = s.bv := rfl
@[simp] theorem supplyInput_p (s : State) (bytes : List Byte) : (supplyInput bytes s).p = s.p := rfl
@[simp] theorem supplyInput_pv (s : State) (bytes : List Byte) : (supplyInput bytes s).pv = s.pv := rfl
@[simp] theorem supplyInput_gv (s : State) (bytes : List Byte) : (supplyInput bytes s).gv = s.gv := rfl
@[simp] theorem supplyInput_cstate (s : State) (bytes : List Byte) : (supplyInput bytes s).cstate = s.cstate := rfl
@[simp] theorem supplyInput_fcode (s : State) (bytes : List Byte) : (supplyInput bytes s).fcode = s.fcode := rfl
@[simp] theorem supplyInput_rcnt (s : State) (bytes : List Byte) : (supplyInput bytes s).rcnt = s.rcnt := rfl
@[simp] theorem supplyInput_cn (s : State) (bytes : List Byte) : (supplyInput bytes s).cn = s.cn := rfl
@[simp] theorem supplyInput_cur (s : State) (bytes : List Byte) : (supplyInput bytes s).cur = s.cur := rfl
@[simp] theorem supplyInput_nb (s : State) (bytes : List Byte) : (supplyInput bytes s).nb = s.nb := rfl
@[simp] theorem supplyInput_nf (s : State) (bytes : List Byte) : (supplyInput bytes s).nf = s.nf := rfl
@[simp] theorem supplyInput_input (s : State) (bytes : List Byte) : (supplyInput bytes s).input = bytes := rfl
@[simp] theorem supplyInput_ipos (s : State) (bytes : List Byte) : (supplyInput bytes s).ipos = 0 := rfl
@[simp] theorem supplyInput_output (s : State) (bytes : List Byte) : (supplyInput bytes s).output = s.output := rfl
@[simp] theorem supplyInput_pending (s : State) (bytes : List Byte) : (supplyInput bytes s).pending = s.pending := rfl
@[simp] theorem supplyInput_replies (s : State) (bytes : List Byte) : (supplyInput bytes s).replies = s.replies := rfl

/-! `presentWord`. -/

@[simp] theorem presentWord_min (s : State) (w : CommandWord) : (presentWord w s).min = s.min := rfl
@[simp] theorem presentWord_max (s : State) (w : CommandWord) : (presentWord w s).max = s.max := rfl
@[simp] theorem presentWord_val (s : State) (w : CommandWord) : (presentWord w s).val = s.val := rfl
@[simp] theorem presentWord_bit (s : State) (w : CommandWord) : (presentWord w s).bit = s.bit := rfl
@[simp] theorem presentWord_bv (s : State) (w : CommandWord) : (presentWord w s).bv = s.bv := rfl
@[simp] theorem presentWord_p (s : State) (w : CommandWord) : (presentWord w s).p = s.p := rfl
@[simp] theorem presentWord_pv (s : State) (w : CommandWord) : (presentWord w s).pv = s.pv := rfl
@[simp] theorem presentWord_gv (s : State) (w : CommandWord) : (presentWord w s).gv = s.gv := rfl
@[simp] theorem presentWord_cstate (s : State) (w : CommandWord) : (presentWord w s).cstate = s.cstate := rfl
@[simp] theorem presentWord_fcode (s : State) (w : CommandWord) : (presentWord w s).fcode = s.fcode := rfl
@[simp] theorem presentWord_rcnt (s : State) (w : CommandWord) : (presentWord w s).rcnt = s.rcnt := rfl
@[simp] theorem presentWord_cn (s : State) (w : CommandWord) : (presentWord w s).cn = s.cn := rfl
@[simp] theorem presentWord_cur (s : State) (w : CommandWord) : (presentWord w s).cur = s.cur := rfl
@[simp] theorem presentWord_nb (s : State) (w : CommandWord) : (presentWord w s).nb = s.nb := rfl
@[simp] theorem presentWord_nf (s : State) (w : CommandWord) : (presentWord w s).nf = s.nf := rfl
@[simp] theorem presentWord_input (s : State) (w : CommandWord) : (presentWord w s).input = s.input := rfl
@[simp] theorem presentWord_ipos (s : State) (w : CommandWord) : (presentWord w s).ipos = s.ipos := rfl
@[simp] theorem presentWord_output (s : State) (w : CommandWord) : (presentWord w s).output = s.output := rfl
@[simp] theorem presentWord_pending (s : State) (w : CommandWord) : (presentWord w s).pending = .command w :: s.pending := rfl
@[simp] theorem presentWord_replies (s : State) (w : CommandWord) : (presentWord w s).replies = s.replies := rfl

/-! `emitStep` is a composition of these updates. -/

theorem emitStep_eq (s : State) (b : Bool) :
    emitStep b s = shiftInterval (countStep (outByte (s.min.extractLsb' 16 8) (correct b s))) := rfl

/-! Small facts of the guard that every command begins with. -/

@[simp] theorem unlessFaulted_clear {s : State} (body : State → State) (h : s.fcode = .clear) :
    unlessFaulted s body = body s := by simp [unlessFaulted, h]

@[simp] theorem unlessFaulted_faulted {s : State} (body : State → State) (h : s.fcode ≠ .clear) :
    unlessFaulted s body = s := by simp [unlessFaulted, h]

end Sys2Proof.Laws
end

