-- ==== Sys2Proof/Laws/Interval.lean ====
section
/-! SUPPORT. The interval arithmetic: `Shift()`, the correction and the scaling in closed form over the naturals. -/

namespace Sys2Proof.Laws

open Sys2Proof.Machine

/-- `(v << 8) & 0xFFFF00 = (v mod 65536) * 256` (spec/41_coder.md R131). -/
theorem shiftByte_eq (v : Nat) : shiftByte v = v % 65536 * 256 := by
  have hmask : Config.mask = (2 ^ 16 - 1) <<< 8 := by decide
  have h : shiftByte v = (v &&& (2 ^ 16 - 1)) <<< 8 := by
    rw [Nat.shiftLeft_and_distrib, ← hmask]; rfl
  rw [h, Nat.and_two_pow_sub_one_eq_mod, Nat.shiftLeft_eq]

theorem shiftByte_lt (v : Nat) : shiftByte v < 2 ^ 24 := by rw [shiftByte_eq]; omega

/-- `Shift()` on `MIN`: the top byte is dropped and the rest moves up (R131). -/
theorem shiftInterval_min_toNat (s : State) : (shiftInterval s).min.toNat = s.min.toNat % 65536 * 256 := by
  rw [shiftInterval_min, BitVec.toNat_ofNat, Nat.mod_eq_of_lt (shiftByte_lt _), shiftByte_eq]

/-- `Shift()` on `MAX`: shifted like `MIN`, and the window ceiling where the shift collapsed the interval (R131). -/
theorem shiftInterval_max_toNat (s : State) :
    (shiftInterval s).max.toNat =
      if s.max.toNat % 65536 * 256 ≤ s.min.toNat % 65536 * 256 then 2 ^ 24 else s.max.toNat % 65536 * 256 := by
  rw [shiftInterval_max, BitVec.toNat_ofNat]
  simp only [shiftByte_eq, ge_iff_le, Config.top]
  split <;> omega

/-- The correction on `MAX` (R131). -/
theorem correct_max_toNat (s : State) (b : Bool) :
    (correct b s).max.toNat = if b then s.max.toNat - 1 else s.max.toNat := by
  cases b
  · rfl
  · simp only [correct_max, if_true, BitVec.toNat_ofNat]
    have := s.max.isLt
    omega

/-- The fold of a coded byte into `VAL` is an addition (spec/41_coder.md R133, R138). -/
theorem foldByte_val_toNat (s : State) (v : Byte) :
    (foldByte v s).val.toNat = s.val.toNat % 65536 * 256 + v.toNat := by
  have hv := v.isLt
  have hor : s.val.toNat % 65536 * 256 ||| v.toNat = s.val.toNat % 65536 * 256 + v.toNat := by
    rw [Nat.mul_comm _ 256]
    exact (Nat.two_pow_add_eq_or_of_lt (i := 8) hv (s.val.toNat % 65536)).symm
  rw [foldByte_val, BitVec.toNat_ofNat, shiftByte_eq, hor]
  omega

/-- The scaling returns an integer from 0 to `range` for every probability (spec/41_coder.md R130). -/
theorem scale_le {range : Nat} {p : Weight} (h1 : p ≤ 1) : Num.scale range p ≤ range := by
  unfold Num.scale
  have hr : (0 : Weight) ≤ range := Nat.cast_nonneg _
  have : ⌊(range : Weight) * p⌋ ≤ (range : Int) := by
    have h : (range : Weight) * p ≤ ((range : Int) : Weight) := by
      push_cast; nlinarith
    calc ⌊(range : Weight) * p⌋ ≤ ⌊((range : Int) : Weight)⌋ := Int.floor_le_floor h
      _ = range := Int.floor_intCast _
  omega

/-- The three bytes of `MIN`, first byte most significant, are `MIN` (spec/20_memory.md R67). -/
theorem minBytes_append (s : State) :
    s.min.extractLsb' 16 8 ++ s.min.extractLsb' 8 8 ++ s.min.extractLsb' 0 8 = s.min := by
  apply BitVec.eq_of_getLsbD_eq
  intro i hi
  simp only [BitVec.getLsbD_append, BitVec.getLsbD_extractLsb']
  split <;> rename_i h1
  · simp [h1]
  · split <;> rename_i h2
    · have : 8 + (i - 8) = i := by omega
      simp [h2, this]
    · have h3 : 16 + (i - 8 - 8) = i := by omega
      have h4 : i - 8 - 8 < 8 := by omega
      simp [h3, h4]

end Sys2Proof.Laws
end

