-- ==== Sys2Proof/Laws/NodeFile.lean ====
section
/-! SUPPORT. The node file: what a write changes, what it keeps, and that the canonical form survives. -/

namespace Sys2Proof.Laws

open Sys2Proof.Machine

/-- A listed address of a canonical file is above its lower bound. -/
theorem canonicalFrom_mem {lo : Option Nat} {nf : NodeFile} (h : canonicalFrom lo nf = true) :
    ∀ e ∈ nf, (∀ a, lo = some a → a < e.1) ∧ e.1 < Config.nodeSpace ∧ e.2 ≠ unlistedNode e.1 := by
  induction nf generalizing lo with
  | nil => simp
  | cons hd tl ih =>
    obtain ⟨b, m⟩ := hd
    simp only [canonicalFrom, Bool.and_eq_true, decide_eq_true_eq, bne_iff_ne] at h
    obtain ⟨⟨⟨h1, h2⟩, h3⟩, h4⟩ := h
    intro e he
    rcases List.mem_cons.1 he with rfl | he
    · refine ⟨?_, h2, h3⟩
      rintro a rfl
      simpa using h1
    · obtain ⟨g1, g2, g3⟩ := ih h4 e he
      refine ⟨?_, g2, g3⟩
      rintro a rfl
      have := g1 b rfl
      have hab : a < b := by simpa using h1
      omega

/-- The lower bound of a canonical file can be lowered. -/
theorem canonicalFrom_weaken {lo lo' : Option Nat} {nf : NodeFile} (h : canonicalFrom lo nf = true)
    (hlo : ∀ a, lo' = some a → ∀ e ∈ nf.head?, a < e.1) : canonicalFrom lo' nf = true := by
  cases nf with
  | nil => rfl
  | cons hd tl =>
    obtain ⟨b, m⟩ := hd
    simp only [canonicalFrom, Bool.and_eq_true] at h ⊢
    refine ⟨⟨⟨?_, h.1.1.2⟩, h.1.2⟩, h.2⟩
    cases lo' with
    | none => rfl
    | some a => simpa using hlo a rfl (b, m) (by simp)

/-- An address that a file does not list reads as `unlistedNode`. -/
theorem nodeAt_unlisted {nf : NodeFile} {a : Nat} (h : ∀ e ∈ nf, e.1 ≠ a) : nodeAt nf a = unlistedNode a := by
  induction nf with
  | nil => rfl
  | cons hd tl ih =>
    obtain ⟨b, m⟩ := hd
    have hb : b ≠ a := h (b, m) (by simp)
    simp only [nodeAt, if_neg (Ne.symm hb)]
    exact ih fun e he => h e (List.mem_cons_of_mem _ he)

/-- READ AFTER WRITE: a written address reads as the node written, in a canonical file. -/
theorem nodeAt_putNode_same {lo : Option Nat} {nf : NodeFile} (a : Nat) (m : Node)
    (h : canonicalFrom lo nf = true) : nodeAt (putNode a m nf) a = m := by
  induction nf generalizing lo with
  | nil =>
    by_cases hm : m = unlistedNode a <;> simp [putNode, nodeAt, hm]
  | cons hd tl ih =>
    obtain ⟨b, k⟩ := hd
    have hmem := canonicalFrom_mem h
    simp only [canonicalFrom, Bool.and_eq_true] at h
    have htl := canonicalFrom_mem h.2
    simp only [putNode]
    by_cases hab : a < b
    · by_cases hm : m = unlistedNode a
      · simp only [hab, hm, if_true]
        refine nodeAt_unlisted fun e he => ?_
        rcases List.mem_cons.1 he with rfl | he
        · simp; omega
        · have := (htl e he).1 b rfl; omega
      · simp [hab, hm, nodeAt]
    · by_cases hab' : a = b
      · subst hab'
        by_cases hm : m = unlistedNode a
        · simp only [lt_irrefl, if_false, hm, if_true]
          refine nodeAt_unlisted fun e he => ?_
          have := (htl e he).1 a rfl; omega
        · simp [hm, nodeAt]
      · simp [hab, hab', nodeAt, ih h.2]

/-- READ ELSEWHERE: every other address reads as before. -/
theorem nodeAt_putNode_other (nf : NodeFile) {a c : Nat} (m : Node) (hc : c ≠ a) :
    nodeAt (putNode a m nf) c = nodeAt nf c := by
  induction nf with
  | nil => by_cases hm : m = unlistedNode a <;> simp [putNode, nodeAt, hm, hc]
  | cons hd tl ih =>
    obtain ⟨b, k⟩ := hd
    simp only [putNode]
    by_cases hab : a < b
    · by_cases hm : m = unlistedNode a <;> simp [hab, hm, nodeAt, hc]
    · by_cases hab' : a = b
      · subst hab'
        by_cases hm : m = unlistedNode a <;> simp [hm, nodeAt, hc]
      · simp [hab, hab', nodeAt, ih]

/-- A write inside the node space keeps the canonical form, above any bound below its address. -/
theorem canonicalFrom_putNode {lo : Option Nat} {nf : NodeFile} {a : Nat} (m : Node)
    (h : canonicalFrom lo nf = true) (ha : a < Config.nodeSpace) (hlo : ∀ l, lo = some l → l < a) :
    canonicalFrom lo (putNode a m nf) = true := by
  induction nf generalizing lo with
  | nil =>
    by_cases hm : m = unlistedNode a
    · simp [putNode, hm, canonicalFrom]
    · cases lo with
      | none => simp [putNode, hm, canonicalFrom, ha]
      | some l => simp [putNode, hm, canonicalFrom, ha, hlo l rfl]
  | cons hd tl ih =>
    obtain ⟨b, k⟩ := hd
    have h0 := h
    simp only [canonicalFrom, Bool.and_eq_true] at h
    simp only [putNode]
    by_cases hab : a < b
    · by_cases hm : m = unlistedNode a
      · simp only [hab, hm, if_true]; exact h0
      · have hrest : canonicalFrom (some a) ((b, k) :: tl) = true := by
          simp only [canonicalFrom, Bool.and_eq_true]
          exact ⟨⟨⟨by simpa using hab, h.1.1.2⟩, h.1.2⟩, h.2⟩
        cases lo with
        | none => simp [hab, hm, canonicalFrom, ha] at hrest ⊢; exact hrest
        | some l =>
          have := hlo l rfl
          simp [hab, hm, canonicalFrom, ha, this] at hrest ⊢; exact hrest
    · by_cases hab' : a = b
      · subst hab'
        by_cases hm : m = unlistedNode a
        · simp only [lt_irrefl, if_false, hm, if_true]
          refine canonicalFrom_weaken h.2 fun l hl e he => ?_
          have := (canonicalFrom_mem h.2 e (List.mem_of_mem_head? he)).1 a rfl
          have := hlo l hl
          omega
        · simp only [lt_irrefl, if_false, hm, if_true, canonicalFrom, Bool.and_eq_true]
          exact ⟨⟨⟨h.1.1.1, h.1.1.2⟩, by simpa using hm⟩, h.2⟩
      · simp only [hab, hab', if_false, canonicalFrom, Bool.and_eq_true]
        exact ⟨h.1, ih h.2 fun l hl => by cases hl; omega⟩

/-- A write keeps the canonical form of the node file. -/
theorem wf_putNode {nf : NodeFile} {a : Nat} (m : Node) (h : nf.wf = true) (ha : a < Config.nodeSpace) :
    NodeFile.wf (putNode a m nf) = true :=
  canonicalFrom_putNode m h ha fun _ hl => by cases hl

/-- A write through `State.setNode` keeps the canonical form: a node address is inside the node space. -/
theorem wf_setNode {s : State} (a : NodeAddr) (m : Node) (h : s.nf.wf = true) : (s.setNode a m).nf.wf = true :=
  wf_putNode m h (by have := a.isLt; simpa [Config.nodeSpace] using this)

/-- Dropping entries keeps the canonical form. -/
theorem canonicalFrom_filter {lo : Option Nat} {nf : NodeFile} (q : Nat × Node → Bool)
    (h : canonicalFrom lo nf = true) : canonicalFrom lo (nf.filter q) = true := by
  induction nf generalizing lo with
  | nil => rfl
  | cons hd tl ih =>
    have hmem := canonicalFrom_mem h
    obtain ⟨b, k⟩ := hd
    simp only [canonicalFrom, Bool.and_eq_true] at h
    by_cases hq : q (b, k) = true
    · simp only [List.filter_cons, hq, if_true, canonicalFrom, Bool.and_eq_true]
      exact ⟨h.1, ih h.2⟩
    · simp only [List.filter_cons, hq]
      refine canonicalFrom_weaken (ih h.2) fun l hl e he => ?_
      have hin : e ∈ tl := List.mem_of_mem_filter (List.mem_of_mem_head? he)
      exact (hmem e (List.mem_cons_of_mem _ hin)).1 l hl

/-- `FlushGraph()` keeps the canonical form. -/
theorem wf_flushGraph {s : State} (h : s.nf.wf = true) : (flushGraph s).nf.wf = true :=
  canonicalFrom_filter _ h

/-- A base-grid address reads as a file without base-grid entries says: unlisted. -/
theorem nodeAt_filter_base (nf : NodeFile) {a : Nat} (ha : isBase a = true) :
    nodeAt (nf.filter fun e => !isBase e.1) a = flushedNode a := by
  rw [nodeAt_unlisted, unlistedNode, if_pos ha]
  intro e he hea
  have := (List.mem_filter.1 he).2
  simp [hea, ha] at this

/-- An address outside the base grid reads as before when the base-grid entries are dropped. -/
theorem nodeAt_filter_pool (nf : NodeFile) {a : Nat} (ha : isBase a = false) :
    nodeAt (nf.filter fun e => !isBase e.1) a = nodeAt nf a := by
  induction nf with
  | nil => rfl
  | cons hd tl ih =>
    obtain ⟨b, k⟩ := hd
    by_cases hb : isBase b = true
    · have hab : a ≠ b := by rintro rfl; simp [ha] at hb
      simp [hb, nodeAt, hab, ih]
    · simp only [Bool.not_eq_true] at hb
      simp [hb, nodeAt, ih]

/-- The node file after reset has the canonical form. -/
theorem wf_reset : State.reset.nf.wf = true := rfl

/-- A host reset keeps the canonical form. -/
theorem wf_applyReset {s : State} (h : s.nf.wf = true) : (applyReset s).nf.wf = true := h

/-- READ AFTER WRITE, through the state. -/
theorem node_setNode_same {s : State} (a : NodeAddr) (m : Node) (h : s.nf.wf = true) : (s.setNode a m).node a = m :=
  nodeAt_putNode_same a.toNat m h

/-- READ ELSEWHERE, through the state. -/
theorem node_setNode_other {s : State} {a c : NodeAddr} (m : Node) (h : c ≠ a) : (s.setNode a m).node c = s.node c :=
  nodeAt_putNode_other s.nf m fun e => h (BitVec.eq_of_toNat_eq e)

/-- Writing a weight leaves the edges. -/
@[simp] theorem edge_setWeight (m : Node) (b c : Bool) (w : Weight) : (m.setWeight b w).edge c = m.edge c := by
  cases b <;> cases c <;> rfl

/-- Writing an edge leaves the weights. -/
@[simp] theorem weight_setEdge (m : Node) (b c : Bool) (a : NodeAddr) : (m.setEdge b a).weight c = m.weight c := by
  cases b <;> cases c <;> rfl

@[simp] theorem weight_setWeight_same (m : Node) (b : Bool) (w : Weight) : (m.setWeight b w).weight b = w := by
  cases b <;> rfl

@[simp] theorem edge_setEdge_same (m : Node) (b : Bool) (a : NodeAddr) : (m.setEdge b a).edge b = a := by
  cases b <;> rfl

end Sys2Proof.Laws
end

