-- ==== Sys2Proof/Laws/Commands.lean ====
section
/-! SUPPORT. What the shared operations and the commands can do, case by case: later proofs cite these and do not
unfold the operations. -/

namespace Sys2Proof.Laws

open Sys2Proof.Machine

/-! The byte source (spec/20_memory.md R66). -/

theorem inByte_of_some {s : State} {v : Byte} (h : s.input[s.ipos]? = some v) :
    inByte s = some (v, { s with ipos := s.ipos + 1 }) := by simp [inByte, h]

theorem inByte_of_none {s : State} (h : s.input[s.ipos]? = none) : inByte s = none := by simp [inByte, h]

/-! Renormalization (spec/41_coder.md R132, R133). -/

/-- With 256 values or more left there is no renormalization step. -/
theorem renormEncode_of_wide {s : State} {b : Bool} (h : Config.floor ≤ s.width) : renormEncode b s = s := by
  simp [renormEncode, Nat.not_lt.2 h]

theorem renormEncode_of_narrow {s : State} {b : Bool} (h : s.width < Config.floor) :
    renormEncode b s = shiftInterval (countStep (outByte (s.min.extractLsb' 16 8) (correct b s))) := by
  simp [renormEncode, h, emitStep_eq]

theorem renormDecode_of_wide {s : State} {b : Bool} (h : Config.floor ≤ s.width) : renormDecode b s = s := by
  simp [renormDecode, Nat.not_lt.2 h]

/-- A step with a next byte: correct, count, take the byte, fold it, shift. -/
theorem renormDecode_of_byte {s : State} {b : Bool} {v : Byte} (h : s.width < Config.floor)
    (hv : s.input[s.ipos]? = some v) :
    renormDecode b s = shiftInterval (foldByte v (countStep { correct b s with ipos := s.ipos + 1 })) := by
  have hv' : (correct b s).input[(correct b s).ipos]? = some v := hv
  simp [renormDecode, h, fetchStep, inByte_of_some hv']

/-- A step with no next byte: the correction stays and the stream has ended. -/
theorem renormDecode_of_end {s : State} {b : Bool} (h : s.width < Config.floor) (hv : s.input[s.ipos]? = none) :
    renormDecode b s = { correct b s with cstate := .ended } := by
  have hv' : (correct b s).input[(correct b s).ipos]? = none := hv
  simp [renormDecode, h, fetchStep, inByte_of_none hv']

/-! Narrowing (spec/41_coder.md R132), for a split point that fits the register. -/

theorem narrow_min_of_true {s : State} {m : Nat} (h : m < 2 ^ 24) : (narrow true m s).min.toNat = m := by
  simp only [narrow_min, if_true, BitVec.toNat_ofNat]; omega

theorem narrow_max_of_false {s : State} {m : Nat} (h : m < 2 ^ 25) : (narrow false m s).max.toNat = m := by
  simp only [narrow_max, Bool.false_eq_true, if_false, BitVec.toNat_ofNat]; omega

/-! The commands. -/

/-- Every command answers a next state: no command stops the block (spec/60_exceptions.md R180, log entry 9). -/
theorem exec_next (i : Instr) (s : State) : ∃ t, exec i s = .next t := by
  cases i <;> exact ⟨_, rfl⟩

/-- A faulted block ignores every command (spec/60_exceptions.md R180). -/
theorem exec_faulted (i : Instr) (s : State) (h : s.fcode ≠ .clear) : exec i s = .next s := by
  cases i <;> simp [exec, execCinit, execSetnb, execFlush, execPredict, execUpdate, execEncbit, execDecbit,
    execFinish, execSeed, h]

theorem mayEncode_iff {s : State} : mayEncode s = true ↔ s.cstate = .ready ∨ s.cstate = .enc := by
  simp [mayEncode]

/-- What a block that is not faulted does on `ENCBIT b` (R132). -/
theorem exec_encbit {s : State} (b : Bool) (h : s.fcode = .clear) :
    exec (.encbit b) s = .next
      (if mayEncode s = false then raiseFault .badCState s
       else if s.pv = false then raiseFault .pNotValid s
       else { latchBit b (renormEncode b (narrow b (splitPoint s) s)) with cstate := .enc }) := by
  simp [exec, execEncbit, h]

/-- What a block that is not faulted does on `DECBIT` (R133). -/
theorem exec_decbit {s : State} (h : s.fcode = .clear) :
    exec .decbit s = .next
      (if s.cstate ≠ .dec then raiseFault .badCState s
       else if s.pv = false then raiseFault .pNotValid s
       else renormDecode (decodedBit s) (latchBit (decodedBit s) (narrow (decodedBit s) (splitPoint s) s))) := by
  simp [exec, execDecbit, h]

/-- What a block that is not faulted does on `FINISH` (R134). -/
theorem exec_finish {s : State} (h : s.fcode = .clear) :
    exec .finish s = .next
      (if mayEncode s = false then raiseFault .badCState s
       else
        { s with
          min := BitVec.ofNat 24 (s.max.toNat - 1)
          output := s.output ++ minBytes { s with min := BitVec.ofNat 24 (s.max.toNat - 1) }
          cstate := .fin }) := by
  simp [exec, execFinish, h]

/-- What a block that is not faulted does on `UPDATE` (R112). -/
theorem exec_update {s : State} (h : s.fcode = .clear) :
    exec .update s = .next
      (if updateFault s = .clear then enterNext s.cn s.bit (recordBit s.cn s.bit (cloneStep s))
       else raiseFault (updateFault s) s) := by
  simp [exec, execUpdate, h]

/-- What a block that is not faulted does on `PREDICT` (R111). -/
theorem exec_predict {s : State} (h : s.fcode = .clear) :
    exec .predict s = .next
      (if s.gv = false then raiseFault .graphNotValid s
       else if s.implements s.cn.toNat = false then raiseFault .nodeAddr s
       else { s with p := Num.probability (currentNode s).w0 (currentNode s).w1, pv := true }) := by
  simp [exec, execPredict, h]

/-- A host register has a value exactly when its number is below 8 (spec/42_system.md R152). -/
theorem readReg_eq_none_iff (k : Nat) (s : State) : readReg k s = none ↔ 8 ≤ k := by
  unfold readReg; split <;> simp_all; omega

/-! The stages of `UPDATE`, as field updates (spec/40_predictor.md R112). -/

/-- The cloning writes touch the node file and the cursor only. -/
theorem cloneTarget_eq (s : State) :
    cloneTarget s = { s with nf := (cloneTarget s).nf, cur := s.cur + 1 } := rfl

/-- Recording a bit touches the node file only. -/
theorem recordBit_eq (n : NodeAddr) (b : Bool) (s : State) :
    recordBit n b s = { s with nf := (recordBit n b s).nf } := rfl

/-- Entering the next node touches the node file, the cursor, the current node and two flags only. -/
theorem enterNext_eq (n : NodeAddr) (b : Bool) (s : State) :
    enterNext n b s = { s with
      nf := (enterNext n b s).nf, cur := (enterNext n b s).cur, cn := (enterNext n b s).cn, bv := false, pv := false } := by
  unfold enterNext; split <;> rfl

/-- With room in the pool `UPDATE` ends along the edge of the bit. -/
theorem enterNext_of_room {s : State} (n : NodeAddr) (b : Bool) (h : s.cur.toNat < s.nb.toNat) :
    enterNext n b s = { s with cn := (s.node n).edge b, bv := false, pv := false } := by
  simp [enterNext, Nat.not_le.2 h]

/-- With the pool full `UPDATE` ends in a flushed graph. -/
theorem enterNext_of_full {s : State} (n : NodeAddr) (b : Bool) (h : s.nb.toNat ≤ s.cur.toNat) :
    enterNext n b s = { flushGraph s with bv := false, pv := false } := by
  simp [enterNext, h]

theorem cloneStep_of_no_clone {s : State} (h : wantsClone s = false) : cloneStep s = s := by simp [cloneStep, h]

theorem cloneStep_of_clone {s : State} (h : wantsClone s = true) (ho : poolOverflows s = false) :
    cloneStep s = cloneTarget s := by simp [cloneStep, h, ho]

/-- Recording a bit writes one weight of one node. -/
theorem node_recordBit_same {s : State} (n : NodeAddr) (b : Bool) (h : s.nf.wf = true) :
    (recordBit n b s).node n = (s.node n).setWeight b (Num.increment ((s.node n).weight b)) :=
  node_setNode_same n _ h

theorem node_recordBit_other {s : State} {n a : NodeAddr} (b : Bool) (h : a ≠ n) :
    (recordBit n b s).node a = s.node a := node_setNode_other _ h

/-! Host sequences. -/

@[simp] theorem andThen_next {α β : Type} (a : α) (k : α → Host.Outcome β Fault Refusal) :
    andThen (.next a) k = k a := rfl

@[simp] theorem runCommands_nil (s : State) : runCommands [] s = .next s := rfl

@[simp] theorem runCommands_cons (i : Instr) (is : List Instr) (s : State) :
    runCommands (i :: is) s = andThen (exec i s) (runCommands is) := rfl

/-- All that a periodic check can do: answer a next state, the one before it or what `FLUSH` leaves of it
(spec/43_sequences.md R162). -/
theorem periodicCheck_cases (cad : Config.Cadence) (count : Nat) (mark : BitVec 32) (s : State) :
    ∃ m t, periodicCheck cad count mark s = .next (m, t) ∧ (t = s ∨ exec .flush s = .next t) := by
  obtain ⟨u, hu⟩ := exec_next .flush s
  unfold periodicCheck
  split
  · split
    · exact ⟨_, u, by rw [hu]; rfl, .inr hu⟩
    · exact ⟨_, s, rfl, .inl rfl⟩
  · exact ⟨_, s, rfl, .inl rfl⟩

end Sys2Proof.Laws
end

