-- ==== Sys2Proof/Laws/Graph.lean ====
section
/-! SUPPORT. The base topology, and the invariants of a valid state graph that the operations rest on. -/

namespace Sys2Proof.Laws

open Sys2Proof.Machine Sys2Proof.Safety

theorem isBase_iff {a : Nat} : isBase a = true ↔ a < 65536 ∧ a % 256 ≠ 0 := by
  simp only [isBase, Bool.and_eq_true, decide_eq_true_eq, bne_iff_ne]; rfl

theorem root_isBase {c : Nat} (h : c < 256) : isBase (root c) = true := by
  rw [isBase_iff]; unfold root; omega

/-- Every edge of the base topology leads to a base-grid node (spec/20_memory.md R62). -/
theorem baseEdge_isBase {a : Nat} (b : Bool) (h : isBase a = true) : isBase (baseEdge a b) = true := by
  rw [isBase_iff] at h ⊢
  simp only [baseEdge, root]
  cases b <;> split <;> simp <;> omega

/-- The base topology has no self-edge (spec/10_state.md R45). -/
theorem baseEdge_ne {a : Nat} (b : Bool) (h : isBase a = true) : baseEdge a b ≠ a := by
  rw [isBase_iff] at h
  simp only [baseEdge, root]
  cases b <;> split <;> simp <;> omega

theorem toNat_baseEdge {a : Nat} (b : Bool) (h : isBase a = true) :
    (BitVec.ofNat 20 (baseEdge a b)).toNat = baseEdge a b := by
  have := isBase_iff.1 (baseEdge_isBase b h)
  rw [BitVec.toNat_ofNat]; omega

/-- A node that a flush wrote meets the node invariants, whatever the cursor. -/
theorem nodeOk_flushed {cur a : Nat} (h : isBase a = true) : NodeOk cur a (flushedNode a) where
  w0_pos := by norm_num [flushedNode, Num.wInit]
  w1_pos := by norm_num [flushedNode, Num.wInit]
  e0_inUse := .inl (by simpa [flushedNode, toNat_baseEdge false h] using baseEdge_isBase false h)
  e1_inUse := .inl (by simpa [flushedNode, toNat_baseEdge true h] using baseEdge_isBase true h)
  e0_ne := by simpa [flushedNode, toNat_baseEdge false h] using baseEdge_ne false h
  e1_ne := by simpa [flushedNode, toNat_baseEdge true h] using baseEdge_ne true h

/-- With an empty pool the nodes in use are those of the base grid. -/
theorem inUse_zero {a : Nat} : InUse 0 a ↔ isBase a = true := by
  unfold InUse; constructor
  · rintro (h | h)
    · exact h
    · omega
  · exact .inl

/-- `FlushGraph()` makes a sound graph under any legal budget (spec/10_state.md R42 to R45). -/
theorem graphOk_flushGraph {s : State} (h : 1 ≤ s.nb.toNat) : GraphOk (flushGraph s) where
  cursor := by simpa [flushGraph_cur, flushGraph_nb, Nat.pos_iff_ne_zero, Nat.one_le_iff_ne_zero] using h
  current := inUse_zero.2 (by simp only [flushGraph_cn]; decide)
  nodes := fun a ha => by
    have hb : isBase a = true := inUse_zero.1 (by simpa using ha)
    simpa [nodeAt_filter_base s.nf hb] using nodeOk_flushed hb

/-- A node in use is implemented while the cursor is within the budget (spec/20_memory.md R61, R64). -/
theorem implements_of_inUse {s : State} {a : NodeAddr} (hcur : s.cur.toNat ≤ s.nb.toNat)
    (h : InUse s.cur.toNat a.toNat) : s.implements a.toNat = true := by
  have := a.isLt
  unfold State.implements implemented
  rcases h with h | ⟨h1, h2⟩
  · simp [h]
  · simp only [Bool.or_eq_true, Bool.and_eq_true, decide_eq_true_eq]
    right; unfold Config.poolBase Config.nodeSpace at *; omega

/-- More of the pool in use keeps every node in use. -/
theorem InUse_mono {c c' a : Nat} (hc : c ≤ c') (h : InUse c a) : InUse c' a := by
  rcases h with h | ⟨h1, h2⟩
  · exact .inl h
  · exact .inr ⟨h1, by omega⟩

/-- Writing a sound node at an address of the node space keeps the graph sound, in a canonical file. -/
theorem graphOk_setNode {s : State} {a : NodeAddr} {m : Node} (hw : s.nf.wf = true) (hg : GraphOk s)
    (hm : NodeOk s.cur.toNat a.toNat m) : GraphOk (s.setNode a m) where
  cursor := hg.cursor
  current := hg.current
  nodes := fun c hc => by
    by_cases hca : c = a.toNat
    · subst hca
      simpa [nodeAt_putNode_same _ m hw] using hm
    · simpa [nodeAt_putNode_other s.nf m hca] using hg.nodes c hc

/-- The state after reset meets the invariant's parts that do not speak of a valid graph. -/
theorem not_graph_valid_reset : State.reset.gv = false ∧ State.reset.pv = false := ⟨rfl, rfl⟩

end Sys2Proof.Laws
end

