-- ==== Sys2Proof/Laws/PerInstr.lean ====
section
/-! SUPPORT. Families of statements made once per instruction. `RowMatch`: the word that the encoder writes has the
fixed bits of the instruction's row of spec/opcode_table.json. -/

namespace Sys2Proof.Laws.RowMatch

/-- The row's mask (spec/30_encoding.md R93). -/
def mask : Instr → CommandWord
  | .cinit => 0xFFFFFFFF
  | .setnb _ => 0xFFF00000
  | .flush => 0xFFFFFFFF
  | .predict => 0xFFFFFFFF
  | .update => 0xFFFFFFFF
  | .encbit _ => 0xFFFFFFFE
  | .decbit => 0xFFFFFFFF
  | .finish => 0xFFFFFFFF
  | .seed => 0xFFFFFFFF

/-- The row's match (spec/30_encoding.md R93). -/
def pattern : Instr → CommandWord
  | .cinit => 0x01000000
  | .setnb _ => 0x02000000
  | .flush => 0x10000000
  | .predict => 0x11000000
  | .update => 0x12000000
  | .encbit _ => 0x20000000
  | .decbit => 0x21000000
  | .finish => 0x22000000
  | .seed => 0x23000000

/-- The encoded word matches the row. -/
def Statement (i : Instr) : Prop := i.wellFormed = true → encode i &&& mask i = pattern i

theorem cinit : Statement .cinit := fun _ => rfl

/-- The operand field of `SETNB` lies outside the mask. -/
theorem setnb (n : Nat) : Statement (.setnb n) := by
  intro h
  have hn : n < 2 ^ 20 := by simpa [Instr.wellFormed] using h
  have he : encode (.setnb n) = 0x020#12 ++ BitVec.ofNat 20 n := by
    apply BitVec.eq_of_toNat_eq
    simp only [encode, BitVec.toNat_ofNat, BitVec.toNat_append, Nat.mod_eq_of_lt hn]
    rw [← Nat.shiftLeft_add_eq_or_of_lt hn, Nat.shiftLeft_eq]
    omega
  have hm : mask (.setnb n) = 0xFFF#12 ++ 0#20 := rfl
  rw [he, hm, BitVec.and_append, BitVec.and_zero]
  rfl

theorem flush : Statement .flush := fun _ => rfl

theorem predict : Statement .predict := fun _ => rfl

theorem update : Statement .update := fun _ => rfl

theorem encbit (b : Bool) : Statement (.encbit b) := fun _ => by cases b <;> rfl

theorem decbit : Statement .decbit := fun _ => rfl

theorem finish : Statement .finish := fun _ => rfl

theorem seed : Statement .seed := fun _ => rfl

end Sys2Proof.Laws.RowMatch
end

