-- ==== Sys2Proof/Machine/Assembler.lean ====
section
/-! DEFINITION. The assembler syntax of command lists (spec/30_encoding.md R96, R97): text to instructions. A host-side
tool, no part of the block. Conventions R96 leaves open: log entry 19. -/

namespace Sys2Proof.Machine.Asm

/-- The pieces of a line between separators. -/
def splitAt (sep : Char → Bool) : List Char → List (List Char)
  | [] => [[]]
  | c :: rest =>
    if sep c then [] :: splitAt sep rest
    else
      match splitAt sep rest with
      | [] => [[c]]
      | w :: ws => (c :: w) :: ws

/-- A line without its comment: a semicolon starts a comment that runs to the end of the line (R96). -/
def uncomment (line : List Char) : List Char := line.takeWhile fun c => c != ';'

/-- The words of a line. -/
def words (line : List Char) : List (List Char) :=
  (splitAt (fun c => c == ' ' || c == '\t' || c == '\r') (uncomment line)).filter fun w => !w.isEmpty

/-- The value of a digit. -/
def digitValue (c : Char) : Option Nat :=
  let n := c.toNat
  if 48 ≤ n ∧ n ≤ 57 then some (n - 48)
  else if 65 ≤ n ∧ n ≤ 70 then some (n - 55)
  else if 97 ≤ n ∧ n ≤ 102 then some (n - 87)
  else none

/-- Digits in a base, after the value of the digits before them. -/
def digits (base : Nat) : Nat → List Char → Option Nat
  | acc, [] => some acc
  | acc, c :: rest =>
    match digitValue c with
    | none => none
    | some d => if d < base then digits base (acc * base + d) rest else none

/-- An unsigned integer, decimal or `0x` hexadecimal (R96). -/
def number : List Char → Option Nat
  | [] => none
  | '0' :: 'x' :: c :: rest => digits 16 0 (c :: rest)
  | c :: rest => digits 10 0 (c :: rest)

/-- `0` or `1` (R96). -/
def bitOperand : List Char → Option Bool
  | ['0'] => some false
  | ['1'] => some true
  | _ => none

/-- A number below `bound`. -/
def below (bound : Nat) (w : List Char) : Option Nat :=
  match number w with
  | none => none
  | some n => if n < bound then some n else none

/-- A mnemonic that stands alone (R96, R97). -/
def plainMnemonic (m : List Char) : Option (List Instr) :=
  if m = "CINIT".toList then some [.cinit]
  else if m = "FLUSH".toList then some [.flush]
  else if m = "PREDICT".toList then some [.predict]
  else if m = "UPDATE".toList then some [.update]
  else if m = "DECBIT".toList then some [.decbit]
  else if m = "FINISH".toList then some [.finish]
  else if m = "SEED".toList then some [.seed]
  else if m = "START".toList then some pseudoStart
  else if m = "DBIT".toList then some pseudoDbit
  else none

/-- A mnemonic with its operand (R96, R97). -/
def withOperand (m x : List Char) : Option (List Instr) :=
  if m = "SETNB".toList then (below (2 ^ 20) x).map fun n => [.setnb n]
  else if m = "ENCBIT".toList then (bitOperand x).map fun b => [.encbit b]
  else if m = "CBIT".toList then (bitOperand x).map pseudoCbit
  else if m = "CBYTE".toList then (below 256 x).map fun n => pseudoCbyte (BitVec.ofNat 8 n)
  else none

/-- The commands of one line: one command or pseudo-instruction, or nothing but a comment; none where the line is no
line of the syntax. -/
def line (cs : List Char) : Option (List Instr) :=
  match words cs with
  | [] => some []
  | [m] => plainMnemonic m
  | [m, x] => withOperand m x
  | _ => none

/-- The commands of lines, in order. -/
def lines : List (List Char) → Option (List Instr)
  | [] => some []
  | l :: rest =>
    match line l, lines rest with
    | some is, some js => some (is ++ js)
    | _, _ => none

/-- The commands of a text, one a line. -/
def assemble (text : String) : Option (List Instr) := lines (splitAt (fun c => c == '\n') text.toList)

end Sys2Proof.Machine.Asm
end

