-- ==== Sys2Proof/Tests/Slice0.lean ====
section
/-! SUPPORT. Tests and witnesses. Expected results are those of spec/95_test_vectors.md (its vector is named in each
docstring) or written out by hand from the rule named; a witness shows a state that meets a statement's premises. -/

namespace Sys2Proof.Tests

open Sys2Proof.Machine Sys2Proof.Safety Sys2Proof.Laws

/-! ## Well-formedness and decoding -/

/-- R91: a budget needs 20 bits; this term has 21, and the check refuses it. -/
theorem test_wellFormed_refuses_21_bits : (Instr.setnb (2 ^ 20)).wellFormed = false := by decide

/-- R91, R151: the largest operand and an operand that execution rejects are both well formed. -/
theorem test_wellFormed_accepts_20_bits :
    (Instr.setnb (2 ^ 20 - 1)).wellFormed = true ∧ (Instr.setnb 0).wellFormed = true := by decide

/-- Section 2.1: `OPC = 00000001`, `ARG = 0`. -/
theorem test_decode_cinit : decode 0b00000001_000000000000000000000000#32 = .ok .cinit := by rfl

/-- Section 2.1: `OPC = 00000010`, `0000`, `n = 01111111111111101101` (524269). -/
theorem test_decode_setnb : decode 0b00000010_0000_01111111111111101101#32 = .ok (.setnb 524269) := by rfl

/-- R91: each of the 20 operand bits is read: the highest and the lowest alone. -/
theorem test_decode_setnb_ends : decode 0b00000010_0000_10000000000000000000#32 = .ok (.setnb 524288) ∧
    decode 0b00000010_0000_00000000000000000001#32 = .ok (.setnb 1) := by exact ⟨rfl, rfl⟩

/-- Section 2.1: `OPC = 00010000`, `ARG = 0`. -/
theorem test_decode_flush : decode 0b00010000_000000000000000000000000#32 = .ok .flush := by rfl

/-- Section 2.1: `OPC = 00010001`, `ARG = 0`. -/
theorem test_decode_predict : decode 0b00010001_000000000000000000000000#32 = .ok .predict := by rfl

/-- Section 2.1: `OPC = 00010010`, `ARG = 0`. -/
theorem test_decode_update : decode 0b00010010_000000000000000000000000#32 = .ok .update := by rfl

/-- Section 2.1: `OPC = 00100000`, 23 zeros, `b`. -/
theorem test_decode_encbit : decode 0b00100000_00000000000000000000000_0#32 = .ok (.encbit false) ∧
    decode 0b00100000_00000000000000000000000_1#32 = .ok (.encbit true) := by exact ⟨rfl, rfl⟩

/-- Section 2.1: `OPC = 00100001`, `ARG = 0`. -/
theorem test_decode_decbit : decode 0b00100001_000000000000000000000000#32 = .ok .decbit := by rfl

/-- Section 2.1: `OPC = 00100010`, `ARG = 0`. -/
theorem test_decode_finish : decode 0b00100010_000000000000000000000000#32 = .ok .finish := by rfl

/-- Section 2.1: `OPC = 00100011`, `ARG = 0`. -/
theorem test_decode_seed : decode 0b00100011_000000000000000000000000#32 = .ok .seed := by rfl

/-- Section 2.1: words with a must-be-zero bit set, by name. -/
theorem test_decode_reserved_bits :
    [0x02100000#32, 0x20000002, 0x20800001, 0x21000001, 0x10000001].map decode =
      [.error (.reservedBits 0x02), .error (.reservedBits 0x20), .error (.reservedBits 0x20),
        .error (.reservedBits 0x21), .error (.reservedBits 0x10)] := by rfl

/-- Section 2.1: words with an unassigned `OPC`, by name. -/
theorem test_decode_unassigned :
    [0x00000000#32, 0x03000000, 0x13000000, 0x24000000, 0xFFFFFFFF].map decode =
      [.error (.unassignedOpcode 0x00), .error (.unassignedOpcode 0x03), .error (.unassignedOpcode 0x13),
        .error (.unassignedOpcode 0x24), .error (.unassignedOpcode 0xFF)] := by rfl

/-- The host's numbering of a table word is the word's own (R90). -/
theorem test_decodeTableWord :
    decodeTableWord 32 0x0207FFED = some (.setnb 524269) ∧ decodeTableWord 32 0x24000000 = none := by exact ⟨rfl, rfl⟩

/-! ## Small states -/

/-- The next state of an outcome; the state after reset stands for the outcomes that have none. -/
def nextOf (o : Host.Outcome State Fault Refusal) : State :=
  match o with
  | .next s => s
  | .fault _ => State.reset
  | .refused _ => State.reset

/-- The state after `FLUSH; CINIT` from reset, where section 2 of the vectors starts. -/
def base : State := { State.reset with gv := true }

/-- A coder with a given interval, probability and `CSTATE`. -/
def coder (lo : BitVec 24) (hi : BitVec 25) (p : Weight) (c : CState) : State :=
  { base with min := lo, max := hi, p := p, pv := true, cstate := c }

/-- A decoder with a given `VAL` and byte source besides. -/
def decoder (lo : BitVec 24) (hi : BitVec 25) (p : Weight) (v : BitVec 24) (bytes : List Byte) : State :=
  { coder lo hi p .dec with val := v, input := bytes }

/-- The start of the vectors of `UPDATE` at node `0x00001` with bit 0: budget, weights of the node and its target. -/
def observed (nb : BitVec 20) (w0 w1 t0 t1 : Weight) : State :=
  ({ base with nb := nb, bv := true }.setNode 1 ⟨w0, w1, 2, 3⟩).setNode 2 ⟨t0, t1, 4, 5⟩

/-- The words of a list presented to the block. -/
def presented (ws : List CommandWord) : State := { State.reset with pending := ws.map .command }

/-! ## One step of each command -/

/-- `base` is what the two commands leave. -/
theorem test_base : nextOf (runCommands pseudoStart State.reset) = base := by decide +kernel

/-- Vector Y2, from the end state of section 4.3. -/
theorem test_cinit :
    nextOf (exec .cinit { base with min := 0x42FAFF, max := 0x42FB00, rcnt := 1, cn := 0x04201, cstate := .fin, val := 7 }) =
      { base with cn := 0x04201 } := by decide +kernel

/-- Vector Y3, and the acceptance bound of section 2.1. -/
theorem test_setnb : nextOf (exec (.setnb 1) { base with pv := true }) = { base with nb := 1, gv := false } ∧
    (nextOf (exec (.setnb 983040) base)).nb = 983040 := by decide +kernel

/-- Section 2.1: `SETNB 983041` and `SETNB 0` raise code 6. -/
theorem test_setnb_faults : nextOf (exec (.setnb 983041) base) = { base with fcode := .badNb } ∧
    nextOf (exec (.setnb 0) base) = { base with fcode := .badNb } := by decide +kernel

/-- Vector P6: the base grid after `FLUSH`, over a state with changed nodes. -/
theorem test_flush :
    [0x00001, 0x0007F, 0x00080, 0x000A0, 0x000FF, 0x0FF01].map
        (nextOf (exec .flush (observed 9 2 (1 / 5) 3 1))).node =
      [⟨1 / 5, 1 / 5, 0x00002, 0x00003⟩, ⟨1 / 5, 1 / 5, 0x000FE, 0x000FF⟩, ⟨1 / 5, 1 / 5, 0x00001, 0x00101⟩,
        ⟨1 / 5, 1 / 5, 0x04001, 0x04101⟩, ⟨1 / 5, 1 / 5, 0x0FE01, 0x0FF01⟩, ⟨1 / 5, 1 / 5, 0x0FF02, 0x0FF03⟩] := by
  decide +kernel

/-- Vectors P1 and P2. -/
theorem test_predict : (nextOf (exec .predict { base with cn := 0x0FFFF })).p = 1 / 2 ∧
    (nextOf (exec .predict (observed 9 (6 / 5) (1 / 5) 3 1))).p = 6 / 7 := by decide +kernel

/-- Vector P5 (row X1), and code 7 at an address with heap index 0 (R64). -/
theorem test_predict_faults : statusWord (nextOf (exec .predict State.reset)) = 0x00002000 ∧
    nextOf (exec .predict { base with cn := 0x00100 }) = { base with cn := 0x00100, fcode := .nodeAddr } := by
  decide +kernel

/-- Vector U2: a clone with both tests at their boundaries. -/
theorem test_update_clones :
    let t := nextOf (exec .update (observed 524269 2 (1 / 5) 3 1))
    (t.cur, t.cn, t.bv, t.pv) = (1, 0x10000, false, false) ∧
      [0x00001, 0x00002, 0x10000].map t.node =
        [⟨3, 1 / 5, 0x10000, 0x00003⟩, ⟨3 / 2, 1 / 2, 0x00004, 0x00005⟩, ⟨3 / 2, 1 / 2, 0x00004, 0x00005⟩] := by
  decide +kernel

/-- Vectors U3 (no clone) and U7 (the clone that takes the last slot flushes). -/
theorem test_update_boundaries :
    (let t := nextOf (exec .update (observed 524269 2 (1 / 5) 3 (9 / 10)))
     (t.cur, t.cn, t.node 1, t.node 2) = (0, 2, ⟨3, 1 / 5, 2, 3⟩, ⟨3, 9 / 10, 4, 5⟩)) ∧
    (let t := nextOf (exec .update (observed 1 2 (1 / 5) 3 1))
     (t.cur, t.cn, t.node 1, t.node 2) = (0, 1, ⟨1 / 5, 1 / 5, 2, 3⟩, ⟨1 / 5, 1 / 5, 4, 5⟩)) := by
  decide +kernel

/-- Vector E15: bit 1, the correction, the byte `12`, and a shift that collapses. -/
theorem test_encbit_collapse :
    let t := nextOf (exec (.encbit true) (coder 0x12FF80 0x130080 (1 / 2) .enc))
    (t.min, t.max, t.output, t.rcnt, t.bit, t.bv, t.pv) = (0xFFFF00, 0x1000000, [0x12], 1, true, true, false) := by
  decide +kernel

/-- Vectors E5 and E7: the two clamps at the closed ends of the probability. -/
theorem test_encbit_clamps :
    (let t := nextOf (exec (.encbit false) (coder 0 0x1000000 1 .enc)); (t.max, t.output) = (0x0FFFFFE, [])) ∧
    (let t := nextOf (exec (.encbit false) (coder 0 0x1000000 0 .enc)); (t.max, t.output) = (0x0000100, [0x00])) := by
  decide +kernel

/-- Vectors D2 and D9: `VAL = mid` decodes 1; the fold of the byte `55`. -/
theorem test_decbit :
    (let t := nextOf (exec .decbit (decoder 0 0x1000000 (1 / 2) 0x7FFFFF [])); (t.bit, t.min, t.cstate) = (true, 0x7FFFFF, .dec)) ∧
    (let t := nextOf (exec .decbit (decoder 0x12FF80 0x130080 (1 / 2) 0x12FFFF [0x55, 0x66]))
     (t.bit, t.min, t.max, t.val, t.ipos, t.rcnt) = (true, 0xFFFF00, 0x1000000, 0xFFFF55, 1, 1)) := by
  decide +kernel

/-- Vector D12: the source is empty after the correction: `MAX` stays corrected and nothing is shifted. -/
theorem test_decbit_ends :
    let t := nextOf (exec .decbit (decoder 0x12FF80 0x130080 (1 / 2) 0x130010 []))
    (t.bit, t.min, t.max, t.val, t.ipos, t.rcnt, t.cstate) = (true, 0x12FFFF, 0x013007F, 0x130010, 0, 0, .ended) := by
  decide +kernel

/-- Vectors F2 and F7. -/
theorem test_finish :
    (let t := nextOf (exec .finish (coder 0x40FFFE 0x41FFFE (1 / 2) .enc))
     (t.min, t.max, t.output, t.cstate) = (0x41FFFD, 0x41FFFE, [0x41, 0xFF, 0xFD], .fin)) ∧
    nextOf (exec .finish { base with cstate := .fin }) = { base with cstate := .fin, fcode := .badCState } := by
  decide +kernel

/-- Vectors S7 and S4. -/
theorem test_seed :
    (let t := nextOf (exec .seed { base with input := [9, 9, 0x12, 0x34, 0x56, 0x78], ipos := 2 })
     (t.val, t.ipos, t.cstate) = (0x123456, 5, .dec)) ∧
    (let t := nextOf (exec .seed { base with input := [0x41, 0x42] })
     (t.val, t.ipos, t.cstate, t.fcode) = (0, 2, .seederr, .clear)) := by
  decide +kernel

/-! ## The step, the host's reads, and short streams -/

/-- Rows X1 and Y4: the step takes the word presented, here one placed for it, and an illegal word raises code 1. -/
theorem test_step :
    (nextOf (step (State.reset.withFetchWord 32 0x11000000))).fcode = .graphNotValid ∧
    (nextOf (step (presented [0x24000000]))).fcode = .illegalCommand := by decide +kernel

/-- Vector Y4: every register after reset. -/
theorem test_readReg_reset : [0, 1, 2, 3, 4, 5, 6, 7].map (readReg · State.reset) =
    [some 0x00000000, some 0x00000000, some 0x01000000, some 0x00000000, some 0x00000000, some 0x00000001,
      some 0x00000000, some 0x0007FFED] := by decide +kernel

/-- Vectors Y5 and Y6: two `STATUS` words. -/
theorem test_status :
    statusWord { base with bit := true, bv := true, cstate := .dec, val := 4, max := 5 } = 0x0000021B ∧
    statusWord { base with pv := true, cstate := .seederr, fcode := .badCState } = 0x0000550C := by decide +kernel

/-- Row X4: a list of words run from reset through the step. -/
theorem test_run :
    (match Host.Core.run core 5 (presented [0x10000000, 0x01000000, 0x11000000, 0x20000000, 0x20000001]) with
      | .next (s : State) => statusWord s
      | .fault _ => 0
      | .refused _ => 0) = 0x0000310A := by decide +kernel

/-- Section 3.3: the byte `41` codes to `41 FF FD`; section 1: `FF` codes to the sentinel alone. -/
theorem test_compress :
    (nextOf (compress .reference [0x41] State.reset)).output = [0x41, 0xFF, 0xFD] ∧
    (nextOf (compress .reference [0xFF] State.reset)).output = [0xFF, 0xFF, 0xFF] := by decide +kernel

/-- Section 4.2: `41 FF FD` decodes to the byte `41`. -/
theorem test_decompress :
    (match decompress .reference 2 [0x41, 0xFF, 0xFD] State.reset with
      | .next d => (d.plain, d.how)
      | .fault _ => ([], .outOfFuel)
      | .refused _ => ([], .outOfFuel)) = ([0x41], .terminated) := by decide +kernel

/-- R96, R97: comments, a hexadecimal operand, a pseudo-instruction; a line that is none is refused. -/
theorem test_assemble :
    Asm.assemble "START ; both units\nSETNB 0x7FFED\n\nCBIT 1\nFINISH" =
      some [.flush, .cinit, .setnb 524269, .predict, .encbit true, .update, .finish] ∧
    Asm.assemble "ENCBIT 2" = none := by decide +kernel

/-! ## Sound states -/

/-- A state as `FlushGraph()` leaves it has a sound graph. -/
theorem fresh_graph {s : State} (h1 : s.nf = []) (h2 : s.cn = 1) (h3 : s.cur = 0) (h4 : 1 ≤ s.nb.toNat) :
    GraphOk s := by
  have hs : flushGraph s = s := by
    obtain ⟨⟩ := s
    simp only at h1 h2 h3
    subst h1 h2 h3
    rfl
  exact hs ▸ graphOk_flushGraph h4

/-- A coder between streams is sound. -/
theorem ready_interval {s : State} (h1 : s.min.toNat = 0) (h2 : s.max.toNat = 2 ^ 24) (h3 : s.cstate = .ready) :
    IntervalOk s where
  order := by omega
  ceiling := by simp [h2, Config.top]
  ready := fun _ => by simp [h1, h2, Config.top]
  wide := by simp [h3]
  fin := by simp [h3]

/-- A coder inside a stream is sound when 256 values are left. -/
theorem wide_interval {s : State} (h1 : s.min.toNat + 256 ≤ s.max.toNat) (h2 : s.max.toNat ≤ 2 ^ 24)
    (h3 : s.cstate = .enc ∨ s.cstate = .dec) : IntervalOk s where
  order := by omega
  ceiling := h2
  ready := by rcases h3 with h | h <;> simp [h]
  wide := fun _ => by unfold State.width Config.floor; omega
  fin := by rcases h3 with h | h <;> simp [h]

theorem base_inv : Inv base where
  file := rfl
  budget := by decide
  source := by decide
  interval := ready_interval rfl rfl rfl
  graph := fun _ => fresh_graph rfl rfl rfl (by decide)
  probability := fun h => by cases h

/-- A fresh graph, a coder inside a stream, a proper probability. -/
theorem coder_inv {s : State} (h1 : s.nf = []) (h2 : s.cn = 1) (h3 : s.cur = 0) (h4 : s.nb = 524269)
    (h5 : s.ipos ≤ s.input.length) (h6 : IntervalOk s) (h7 : s.gv = true) (h8 : 0 < s.p ∧ s.p < 1) : Inv s where
  file := by rw [h1]; rfl
  budget := by rw [h4]; decide
  source := h5
  interval := h6
  graph := fun _ => fresh_graph h1 h2 h3 (by rw [h4]; decide)
  probability := fun _ => ⟨h7, h8⟩

/-- The start of an `UPDATE` vector is sound, for positive weights. -/
theorem observed_inv {nb : BitVec 20} {w0 w1 t0 t1 : Weight} (hn : 1 ≤ nb.toNat ∧ nb.toNat ≤ 983040)
    (h0 : 0 < w0) (h1 : 0 < w1) (h2 : 0 < t0) (h3 : 0 < t1) : Inv (observed nb w0 w1 t0 t1) where
  file := wf_setNode _ _ (wf_setNode (s := { base with nb := nb, bv := true }) _ _ rfl)
  budget := hn
  source := Nat.le_refl 0
  interval := ready_interval rfl rfl rfl
  graph := fun _ => by
    refine graphOk_setNode (wf_setNode (s := { base with nb := nb, bv := true }) _ _ rfl)
      (graphOk_setNode rfl (fresh_graph rfl rfl rfl hn.1) ?_) ?_
    · exact ⟨h0, h1, .inl rfl, .inl rfl, (by decide : (2#20).toNat ≠ (1#20).toNat), (by decide : (3#20).toNat ≠ (1#20).toNat)⟩
    · exact ⟨h2, h3, .inl rfl, .inl rfl, (by decide : (4#20).toNat ≠ (2#20).toNat), (by decide : (5#20).toNat ≠ (2#20).toNat)⟩
  probability := fun h => by cases h

/-- An outcome that is a next state is the next state of itself. -/
theorem exec_nextOf (i : Instr) (s : State) : exec i s = .next (nextOf (exec i s)) := by
  obtain ⟨t, ht⟩ := exec_next i s
  rw [ht]; rfl

/-! ## Witnesses: states and operands that meet the premises of the statements -/

theorem witness_DecodeOfEncode :
    (Instr.setnb 0).wellFormed = true ∧ (Instr.setnb 1048575).wellFormed = true ∧
      (Instr.encbit true).wellFormed = true := by decide

theorem witness_DecodedWord : decode 0x020FFFFF = .ok (.setnb 1048575) ∧ decode 0x20000001 = .ok (.encbit true) := by
  exact ⟨rfl, rfl⟩

theorem witness_IllegalWord :
    (∃ (s : State) (rest : List HostAction), s.pending = .command 0x24000000 :: rest ∧ s.fcode = .clear) ∧
      ¬ legalWord 0x24000000 ∧ ¬ legalWord 0x02100000 ∧ ¬ legalWord 0x20000002 ∧ legalWord 0x20000001 ∧
      legalWord 0x02000000 ∧ legalWord 0x020FFFFF ∧ legalWord 0x23000000 := by
  refine ⟨⟨presented [0x24000000], [], rfl, rfl⟩, ?_⟩
  dsimp only [legalWord]
  refine ⟨?_, ?_, ?_, ?_, ?_, ?_, ?_⟩ <;> decide

theorem witness_BadBudgetWord :
    (presented [BitVec.ofNat 32 (0x02000000 + 0)]).pending = .command (BitVec.ofNat 32 (0x02000000 + 0)) :: [] ∧
    (presented [BitVec.ofNat 32 (0x02000000 + 983041)]).pending =
      .command (BitVec.ofNat 32 (0x02000000 + 983041)) :: [] ∧ 983041 < 2 ^ 20 := by decide

theorem witness_StepRuns : (presented [0x10000000]).pending = .command 0x10000000 :: [] ∧
    decode 0x10000000 = .ok .flush := by exact ⟨rfl, rfl⟩

theorem witness_StepTakes : base.pending = [] ∧
    (∃ v, { base with pending := [.readReg 7] }.pending = [.readReg 7] ∧
      readReg 7 { base with pending := [.readReg 7] } = some v) ∧
    { base with pending := [.supply [1, 2]] }.pending = .supply [1, 2] :: [] := by
  exact ⟨rfl, ⟨_, rfl, rfl⟩, rfl⟩

theorem witness_ReservedRead :
    { base with pending := [.readReg 8] }.pending = .readReg 8 :: [] ∧
      step { base with pending := [.readReg 8] } = .refused (.reservedRegister 8) := by exact ⟨rfl, rfl⟩

theorem witness_FaultCodeIsSticky :
    { base with fcode := .badNb, pending := [.command 0x10000000] }.fcode ≠ .clear ∧
    ∃ t, step { base with fcode := .badNb, pending := [.reset] } = .next t ∧ t.fcode ≠ .badNb := by
  exact ⟨by decide, _, rfl, by decide⟩

theorem witness_Reset : { base with fcode := .badNb, pending := [.reset] }.pending = .reset :: [] := by rfl

/-- The premise of the statements about a block that is not faulted, in a state that a stream has ended. -/
theorem witness_NotFaulted : { base with cstate := .ended }.fcode = .clear := by rfl

/-- The four boundaries of `SETNB`'s operand. -/
theorem witness_Setnb : base.fcode = .clear ∧ (1 ≤ 1 ∧ 1 ≤ 983040) ∧ (1 ≤ 983040 ∧ 983040 ≤ 983040) ∧
    (0 = 0 ∨ 983040 < 0) ∧ (983041 = 0 ∨ 983040 < 983041) := by decide

/-- The boundary addresses of the base topology, from R62: heap index 127 stays in its context, 128 leaves it. -/
theorem witness_BaseTopology : baseEdge (255 * 256 + 127) true = 255 * 256 + 255 ∧
    baseEdge (255 * 256 + 128) false = 1 ∧ baseEdge (255 * 256 + 255) true = 255 * 256 + 1 ∧
    Literal.walk (root 0) (bitsMsbFirst 0xFF) = root 255 ∧ Literal.walk (root 0) ((bitsMsbFirst 0x41).take 7) = 0xA0 := by
  decide

theorem witness_FlushGraph : (observed 9 2 (1 / 5) 3 1).nf.wf = true :=
  (observed_inv (by decide) (by norm_num) (by norm_num) (by norm_num) (by norm_num)).file

theorem witness_CanonicalNodeFiles : NodeFile.wf [(1, ⟨2, 1, 2, 3⟩), (65536, ⟨1, 1, 1, 1⟩)] = true := by
  decide +kernel

theorem witness_Predict :
    (base.fcode = .clear ∧ base.gv = true ∧ base.implements base.cn.toNat = true ∧
      (base.node base.cn).w0 + (base.node base.cn).w1 ≠ 0) ∧
    State.reset.gv = false ∧
    ({ base with cn := 0x00100 }.gv = true ∧ { base with cn := 0x00100 }.implements 0x00100 = false) := by
  decide +kernel

/-- A node whose weights sum to 0; no run reaches it. -/
theorem witness_ZeroTotal :
    let s := observed 9 0 0 3 1
    s.fcode = .clear ∧ s.gv = true ∧ s.implements s.cn.toNat = true ∧ (s.node s.cn).w0 + (s.node s.cn).w1 = 0 := by
  decide +kernel

theorem witness_ProperProbability : Inv base ∧ base.gv = true ∧ base.fcode = .clear := ⟨base_inv, rfl, rfl⟩

/-- Vector U3: the total is below the boundary. -/
theorem witness_UpdateWithoutCloning :
    updateLegal (observed 524269 2 (1 / 5) 3 (9 / 10)) ∧ ¬ updateClones (observed 524269 2 (1 / 5) 3 (9 / 10)) := by
  refine ⟨⟨observed_inv (by decide) (by norm_num) (by norm_num) (by norm_num) (by norm_num), rfl, rfl, rfl⟩, ?_⟩
  unfold updateClones; decide +kernel

/-- Vector U2: both tests of the cloning rule at their boundaries, the pool with one slot to spare. -/
theorem witness_UpdateWithCloning :
    updateLegal (observed 2 2 (1 / 5) 3 1) ∧ updateClones (observed 2 2 (1 / 5) 3 1) ∧
      (observed 2 2 (1 / 5) 3 1).cur.toNat + 1 < (observed 2 2 (1 / 5) 3 1).nb.toNat := by
  refine ⟨⟨observed_inv (by decide) (by norm_num) (by norm_num) (by norm_num) (by norm_num), rfl, rfl, rfl⟩, ?_,
    by decide⟩
  unfold updateClones; decide +kernel

/-- Vector U7: the last slot. -/
theorem witness_UpdateThatFillsThePool :
    updateLegal (observed 1 2 (1 / 5) 3 1) ∧ updateClones (observed 1 2 (1 / 5) 3 1) ∧
      (observed 1 2 (1 / 5) 3 1).cur.toNat + 1 = (observed 1 2 (1 / 5) 3 1).nb.toNat := by
  refine ⟨⟨observed_inv (by decide) (by norm_num) (by norm_num) (by norm_num) (by norm_num), rfl, rfl, rfl⟩, ?_,
    by decide⟩
  unfold updateClones; decide +kernel

theorem witness_CloningConservesWeight :
    Inv (observed 2 2 (1 / 5) 3 1) ∧ (observed 2 2 (1 / 5) 3 1).gv = true ∧ updateClones (observed 2 2 (1 / 5) 3 1) :=
  ⟨witness_UpdateWithCloning.1.1, rfl, witness_UpdateWithCloning.2.1⟩

/-- Each fault of `UPDATE`: no graph; no bit; the current node at heap index 0; its target past the budget. -/
theorem witness_UpdateFaults :
    State.reset.gv = false ∧ (base.gv = true ∧ base.bv = false) ∧
    (let s := { base with bv := true, cn := 0x00100 }; s.fcode = .clear ∧ s.implements s.cn.toNat = false) ∧
    (let s := { base with bv := true }.setNode 1 ⟨1, 1, 0xFFFFF, 3⟩
     s.fcode = .clear ∧ s.bv = true ∧ s.gv = true ∧ s.implements (updateTarget s).toNat = false) := by
  decide +kernel

/-- Widths 1, 2 and 3, at the ceiling and at the ends of the probability. -/
theorem witness_Mid : (0 : Nat) < 1 ∧ (0 : Weight) ≤ 0 ∧ (0 : Weight) ≤ 1 ∧ (1 : Weight) ≤ 1 ∧
    (0 + 3 ≤ 3 ∧ mid 0 3 1 = 1) ∧ (16777216 = 16777214 + 2 ∧ mid 16777214 16777216 1 = 16777214) ∧
    (16777216 = 16777215 + 1 ∧ mid 16777215 16777216 0 = 16777216) := by decide +kernel

/-- `CSTATE = DEC` with a step to run, with and without a byte. -/
theorem witness_RenormalizationLoops :
    (decoder 0 100 (1 / 2) 7 [1]).cstate = .dec ∧ (decoder 0 100 (1 / 2) 7 [1]).width < 256 ∧
      (decoder 0 100 (1 / 2) 7 []).width < 256 := by decide

/-- Vector E14: the smallest width, and a step; vector E1: no step; the premises of each clause of the statement. -/
theorem witness_Encbit :
    (let s := coder 0x12FF80 0x130080 (1 / 2) .enc
     s.fcode = .clear ∧ s.pv = true ∧ codable s ∧ narrowedMax false s - narrowedMin false s < 256) ∧
    (let s := coder 0 0x1000000 (1 / 2) .enc
     codable s ∧ 256 ≤ narrowedMax true s - narrowedMin true s) ∧
    codable (coder 0 0x100 0 .ready) ∧ codable (coder 0xFFFF00 0x1000000 1 .enc) ∧
    (base.cstate = .ready ∧ base.pv = false) := by
  unfold codable; decide +kernel

/-- Vectors D1, D5 and D6: no step, a step with a byte, a step without one. -/
theorem witness_Decbit :
    (let s := decoder 0 0x1000000 (1 / 2) 0x41FFFD []
     s.fcode = .clear ∧ s.cstate = .dec ∧ s.pv = true ∧ codable s ∧ 256 ≤ narrowedMax false s - narrowedMin false s) ∧
    (let s := decoder 0x4141FC 0x4143FC (1 / 2) 0x4142FA [0xFF]
     codable s ∧ narrowedMax false s - narrowedMin false s < 256 ∧ s.input[s.ipos]? = some 0xFF) ∧
    (let s := decoder 0x4141FC 0x4143FC (1 / 2) 0x4142FA []
     codable s ∧ narrowedMax false s - narrowedMin false s < 256 ∧ s.input[s.ipos]? = none) := by
  unfold codable; decide +kernel

/-- `FINISH` at the ends of the range of `MAX`, and in a state in which it may not run. -/
theorem witness_Finish :
    (base.cstate = .ready ∧ 1 ≤ base.max.toNat ∧ base.max.toNat ≤ 2 ^ 24) ∧
    (let s := coder 0 1 0 .enc; s.cstate = .enc ∧ 1 ≤ s.max.toNat ∧ s.max.toNat ≤ 2 ^ 24) ∧
    (let s := { base with cstate := .fin }; s.fcode = .clear ∧ s.cstate ≠ .ready ∧ s.cstate ≠ .enc) := by decide

/-- `SEED` with exactly three bytes left, with two, with a read position past the end, and out of place. -/
theorem witness_Seed :
    (let s := { base with input := [0x41, 0xFF, 0xFD] }
     s.cstate = .ready ∧ s.input[s.ipos]? = some 0x41 ∧ s.input[s.ipos + 1]? = some 0xFF ∧
       s.input[s.ipos + 2]? = some 0xFD) ∧
    (let s := { base with input := [0x41, 0x42] }; s.cstate = .ready ∧ s.input.length - s.ipos < 3) ∧
    (let s := { base with input := [], ipos := 5 }; s.input.length - s.ipos < 3) ∧
    { base with cstate := .dec }.cstate ≠ .ready := by decide

/-- Both bits, each at its boundary: vector E24's interval for bit 1, and the second clamp at the ceiling for bit 0,
where `mid = 2^24 - 2`. -/
theorem witness_ShiftNeverSeesTheCeiling :
    (let s := coder 0xFFFF00 0x1000000 (1 / 2) .enc
     codable s ∧ narrowedMax true s - narrowedMin true s < 256) ∧
    (let s := coder 0xFFFF00 0x1000000 1 .enc
     codable s ∧ narrowedMax false s - narrowedMin false s < 256 ∧ mid s.min.toNat s.max.toNat s.p = 0xFFFFFE) := by
  unfold codable; decide +kernel

/-- Vectors E14 (the common top byte) and E15 (the lower one). -/
theorem witness_EmittedByte :
    let s := coder 0x12FF80 0x130080 (1 / 2) .enc
    s.fcode = .clear ∧ s.cstate = .enc ∧ s.pv = true ∧ codable s ∧
      exec (.encbit false) s = .next (nextOf (exec (.encbit false) s)) ∧
      exec (.encbit true) s = .next (nextOf (exec (.encbit true) s)) ∧
      narrowedMax false s - narrowedMin false s < 256 ∧ narrowedMax true s - narrowedMin true s < 256 ∧
      narrowedMin false s % 65536 * 256 < correctedMax false s % 65536 * 256 ∧
      correctedMax true s % 65536 * 256 ≤ narrowedMin true s % 65536 * 256 := by
  refine ⟨rfl, rfl, rfl, by unfold codable; decide +kernel, exec_nextOf _ _, exec_nextOf _ _, ?_⟩
  decide +kernel

/-- The premise that a command answers a next state, for each command. -/
theorem witness_Answers : ∀ i ∈ [Instr.cinit, .setnb 1, .flush, .predict, .update, .encbit true, .decbit, .finish, .seed],
    exec i base = .next (nextOf (exec i base)) := fun i _ => exec_nextOf i base

theorem witness_LegalityTable : Inv base ∧ base.fcode = .clear ∧ { base with fcode := .badNb }.fcode ≠ .clear ∧
    ∀ i, decode 0x24000000 ≠ .ok i := by
  refine ⟨base_inv, rfl, by decide, fun i h => ?_⟩
  cases h

theorem witness_FaultsArePrecise :
    exec .update base = .next (nextOf (exec .update base)) ∧ (nextOf (exec .update base)).fcode ≠ .clear :=
  ⟨exec_nextOf _ _, by decide +kernel⟩

theorem witness_WritersOfTheRegisters :
    exec (.setnb 5) base = .next (nextOf (exec (.setnb 5) base)) ∧ (nextOf (exec (.setnb 5) base)).nb ≠ base.nb ∧
      (nextOf (exec (.setnb 5) base)).gv ≠ base.gv := ⟨exec_nextOf _ _, by decide⟩

/-- Commands that change `BIT`, `BV`, `P` and `PV`, in both directions. -/
theorem witness_WritersOfTheFlags :
    (let s := coder 0 0x1000000 (1 / 2) .enc
     let t := nextOf (exec (.encbit true) s)
     t.bit ≠ s.bit ∧ t.bv ≠ s.bv ∧ t.pv ≠ s.pv) ∧
    (let t := nextOf (exec .predict base); t.p ≠ base.p ∧ t.pv ≠ base.pv) ∧
    (let s := { base with bit := true, bv := true }
     let t := nextOf (exec .cinit s)
     t.bit ≠ s.bit ∧ t.bv ≠ s.bv) ∧
    (let s := observed 9 1 1 3 1; (nextOf (exec .update s)).bv ≠ s.bv) := by decide +kernel

theorem witness_CinitLeaves :
    let s := { base with cstate := .ended }
    exec .cinit s = .next (nextOf (exec .cinit s)) ∧ s.cstate = .ended ∧ (nextOf (exec .cinit s)).cstate = .ready := by
  exact ⟨exec_nextOf _ _, rfl, rfl⟩

theorem witness_Direction :
    let s := decoder 0x4141FC 0x4143FC (1 / 2) 0x4142FA []
    exec .decbit s = .next (nextOf (exec .decbit s)) ∧ Instr.decbit ≠ .cinit ∧ s.cstate = .dec ∧
      (coder 0 256 (1 / 2) .enc).cstate = .enc := by
  exact ⟨exec_nextOf _ _, by decide, rfl, rfl⟩

/-- A sound state that takes a command, and what follows. -/
theorem witness_StepKeepsTheInvariant :
    let s := { base with pending := [.command 0x11000000] }
    Inv s ∧ step s = .next (nextOf (step s)) := by
  refine ⟨⟨rfl, by decide, by decide, ready_interval rfl rfl rfl, fun _ => fresh_graph rfl rfl rfl (by decide),
    fun h => by cases h⟩, ?_⟩
  exact (show step { base with pending := [.command 0x11000000] } = exec .predict base from rfl) ▸ exec_nextOf _ _

theorem witness_CommandsKeepTheInterval :
    let s := coder 0 256 (1 / 2) .enc
    IntervalOk s ∧ (s.pv = true → 0 ≤ s.p ∧ s.p ≤ 1) ∧
      exec (.encbit true) s = .next (nextOf (exec (.encbit true) s)) :=
  ⟨wide_interval (by decide) (by decide) (.inl rfl), fun _ => ⟨by norm_num [coder], by norm_num [coder]⟩, exec_nextOf _ _⟩

theorem witness_UpdateKeepsTheGraph :
    let s := observed 1 2 (1 / 5) 3 1
    s.nf.wf = true ∧ s.nb.toNat ≤ 983040 ∧ GraphOk s ∧ exec .update s = .next (nextOf (exec .update s)) :=
  have h := witness_UpdateThatFillsThePool.1.1
  ⟨h.file, h.budget.2, h.graph rfl, exec_nextOf _ _⟩

theorem witness_PoolOverflow :
    Inv (observed 1 2 (1 / 5) 3 1) ∧ (observed 1 2 (1 / 5) 3 1).gv = true ∧
      exec .update (observed 1 2 (1 / 5) 3 1) = .next (nextOf (exec .update (observed 1 2 (1 / 5) 3 1))) :=
  ⟨witness_UpdateThatFillsThePool.1.1, rfl, exec_nextOf _ _⟩

/-- A decoder that has consumed `09 41 FF FD` holds `41 FF FD`. -/
theorem witness_ValHoldsLastBytes :
    ValHoldsLastBytes { decoder 0 0x1000000 (1 / 2) 0x41FFFD [0x09, 0x41, 0xFF, 0xFD] with ipos := 4 } ∧
      (decoder 0 0x1000000 (1 / 2) 0x41FFFD [0x09, 0x41, 0xFF, 0xFD]).cstate = .dec :=
  ⟨fun _ => ⟨0x41, 0xFF, 0xFD, by decide⟩, rfl⟩

/-- Two sound states that differ in `P` and in a free pool slot, and step. -/
theorem witness_Unobservable :
    let t := { (base.setNode 0x10000 ⟨9, 9, 9, 9⟩) with p := 7 }
    Inv base ∧ Inv t ∧ sameButUnobservable base t ∧ base ≠ t ∧ step base = .next base := by
  refine ⟨base_inv, ⟨by decide +kernel, by decide, by decide, ready_interval rfl rfl rfl, fun _ => ?_, fun h => by cases h⟩,
    ⟨rfl, fun h => absurd h (by decide), fun _ a ha => ?_⟩, by decide +kernel, rfl⟩
  · refine ⟨by decide, inUse_zero.2 (by decide), fun a ha => ?_⟩
    have hb : isBase a = true := inUse_zero.1 ha
    have hne : a ≠ 65536 := by have := isBase_iff.1 hb; omega
    have hr : nodeAt (putNode 65536 ⟨9, 9, 9, 9⟩ []) a = flushedNode a := by
      rw [nodeAt_putNode_other _ _ hne]; simp [nodeAt, unlistedNode, hb]
    show NodeOk 0 a (nodeAt (putNode 65536 ⟨9, 9, 9, 9⟩ []) a)
    rw [hr]; exact nodeOk_flushed hb
  · have hb : isBase a = true := inUse_zero.1 ha
    exact nodeAt_putNode_other _ _ (by have := isBase_iff.1 hb; show a ≠ 65536; omega)

/-- An encoder that is ready and a decoder with `VAL` in the upper half, at the same plain-bit position. -/
theorem witness_Mirror :
    let d := { base with cstate := .dec, val := 0xC00000 }
    Inv base ∧ Inv d ∧ mirrored base d ∧
      ∃ d₁, runCommands [.predict, .decbit] d = .next d₁ ∧ d₁.cstate = .dec ∧ d₁.bit = true := by
  refine ⟨base_inv, ⟨rfl, by decide, by decide, wide_interval (by decide) (by decide) (.inr rfl),
    fun _ => fresh_graph rfl rfl rfl (by decide), fun h => by cases h⟩, ?_,
    nextOf (runCommands [.predict, .decbit] { base with cstate := .dec, val := 0xC00000 }), rfl, ?_⟩
  · unfold mirrored; decide
  · decide +kernel

theorem witness_Decompress : Inv base ∧ base.fcode = .clear ∧ 2 ^ 24 * (List.length [(0x41 : Byte), 0x42] + 1) ≤ 2 ^ 26 ∧
    2 ^ 24 * (List.length [(0x41 : Byte), 0x42, 0xFA] + 1) ≤ 2 ^ 26 := ⟨base_inv, rfl, by decide⟩

/-- The premises of the statements about short streams. -/
theorem witness_ShortStreams : base.fcode = .clear ∧ (1 : Nat) ≤ 1 := by decide

end Sys2Proof.Tests
end

section
/-! The step taken apart: which host action it takes (spec/00_scope.md R7), and which command a word runs
(spec/30_encoding.md R93). -/

namespace Sys2Proof.Proofs.Scope

open Sys2Proof.Machine

/-- A step takes the action presented first, and that action sees the queue without it. -/
theorem step_of_pending_cons {s : State} {a : HostAction} {rest : List HostAction} (h : s.pending = a :: rest) :
    step s = takeAction a { s with pending := rest } := by
  simp only [step, takeNext, h]

theorem step_of_pending_command {s : State} {w : CommandWord} {rest : List HostAction}
    (h : s.pending = .command w :: rest) : step s = execWord w { s with pending := rest } :=
  step_of_pending_cons h

theorem execWord_of_decode_ok {w : CommandWord} {i : Instr} (h : decode w = .ok i) (s : State) :
    execWord w s = exec i s := by
  simp only [execWord, h]

/-- Settles O6: the step takes the command word from the queue, and the word runs the command it decodes to. -/
theorem stepRunsTheDecodedInstruction : Obligations.StepRunsTheDecodedInstruction := by
  intro s w i rest hpending hdecode
  calc step s
      _ = execWord w { s with pending := rest } := step_of_pending_command hpending
      _ = exec i { s with pending := rest } := execWord_of_decode_ok hdecode _

end Sys2Proof.Proofs.Scope
end

section
/-! What a command does, in one equation for all nine: the fault that stops it (spec/60_exceptions.md R182), and its
effect where none does. Invariants are packaged once on top of it. -/

namespace Sys2Proof.Proofs.Effects

open Sys2Proof.Machine Sys2Proof.Laws

/-- The fault that a command raises in a block that is not faulted, or `clear` (R182; log entry 12). -/
def commandFault (i : Instr) (s : State) : FaultCode :=
  match i with
  | .cinit | .flush => .clear
  | .setnb n => if n = 0 ∨ n > Config.nbMax then .badNb else .clear
  | .predict =>
    if s.gv = false then .graphNotValid else if s.implements s.cn.toNat = false then .nodeAddr else .clear
  | .update => updateFault s
  | .encbit _ => if mayEncode s = false then .badCState else if s.pv = false then .pNotValid else .clear
  | .decbit => if s.cstate ≠ .dec then .badCState else if s.pv = false then .pNotValid else .clear
  | .finish => if mayEncode s = false then .badCState else .clear
  | .seed => if s.cstate ≠ .ready then .badCState else .clear

/-- `SEED` where it is legal (spec/41_coder.md R135). -/
def seedEffect (s : State) : State :=
  match s.input.drop s.ipos with
  | b0 :: b1 :: b2 :: _ =>
    { s with val := BitVec.ofNat 24 (b0.toNat * 65536 + b1.toNat * 256 + b2.toNat), ipos := s.ipos + 3, cstate := .dec }
  | _ => { s with ipos := s.input.length, cstate := .seederr }

/-- What a command does where it raises no fault. -/
def commandEffect (i : Instr) (s : State) : State :=
  match i with
  | .cinit =>
    { s with min := 0, max := BitVec.ofNat 25 Config.top, val := 0, bit := false, bv := false, rcnt := 0, cstate := .ready }
  | .setnb n => { s with nb := BitVec.ofNat 20 n, gv := false, pv := false }
  | .flush => { flushGraph s with gv := true, pv := false }
  | .predict => { s with p := Num.probability (currentNode s).w0 (currentNode s).w1, pv := true }
  | .update => enterNext s.cn s.bit (recordBit s.cn s.bit (cloneStep s))
  | .encbit b => { latchBit b (renormEncode b (narrow b (splitPoint s) s)) with cstate := .enc }
  | .decbit => renormDecode (decodedBit s) (latchBit (decodedBit s) (narrow (decodedBit s) (splitPoint s) s))
  | .finish =>
    { s with
      min := BitVec.ofNat 24 (s.max.toNat - 1)
      output := s.output ++ minBytes { s with min := BitVec.ofNat 24 (s.max.toNat - 1) }
      cstate := .fin }
  | .seed => seedEffect s

/-- All that a command can do: nothing in a faulted block, raise its fault, or have its effect (R180, R182).
It stands before the first proof of this part: Lean checks all earlier declarations before it admits an inductive one,
so the proofs below are not elaborated beside the kernel evaluations of the model's tests, which fill the check's memory
limit with waiting threads. -/
inductive Answer (i : Instr) (s : State) : State → Prop
  | ignored (hfaulted : s.fcode ≠ .clear) : Answer i s s
  | faulted (hfault : commandFault i s ≠ .clear) : Answer i s (raiseFault (commandFault i s) s)
  | effect (hlegal : commandFault i s = .clear) : Answer i s (commandEffect i s)

/-- A legal command has its effect, another one raises its fault (R180, R182). -/
theorem exec_of_clear (i : Instr) {s : State} (h : s.fcode = .clear) :
    exec i s = .next (if commandFault i s = .clear then commandEffect i s else raiseFault (commandFault i s) s) := by
  cases i with
  | cinit => simp [exec, execCinit, commandFault, commandEffect, h]
  | setnb n => simp only [exec, execSetnb, commandFault, commandEffect, unlessFaulted_clear _ h]; split <;> rfl
  | flush => simp [exec, execFlush, commandFault, commandEffect, h]
  | predict =>
    simp only [exec_predict h, commandFault, commandEffect]
    by_cases hgraph : s.gv = false <;> by_cases haddr : s.implements s.cn.toNat = false <;> simp [hgraph, haddr]
  | update => rw [exec_update h]; rfl
  | encbit b =>
    simp only [exec_encbit b h, commandFault, commandEffect]
    by_cases hstate : mayEncode s = false <;> by_cases hvalid : s.pv = false <;> simp [hstate, hvalid]
  | decbit =>
    simp only [exec_decbit h, commandFault, commandEffect]
    by_cases hstate : s.cstate = .dec <;> by_cases hvalid : s.pv = false <;> simp [hstate, hvalid]
  | finish =>
    simp only [exec_finish h, commandFault, commandEffect]
    by_cases hstate : mayEncode s = false <;> simp [hstate]
  | seed =>
    simp only [exec, execSeed, commandFault, commandEffect, unlessFaulted_clear _ h]
    by_cases hstate : s.cstate = .ready <;> simp only [hstate, ne_eq, not_true_eq_false, if_false, if_true] <;> rfl

/-! What a legal command knows of its state (R182). -/

theorem commandFault_setnb {n : Nat} {s : State} :
    commandFault (.setnb n) s = .clear ↔ 1 ≤ n ∧ n ≤ 983040 := by
  simp only [commandFault, Config.nbMax]
  split_ifs <;> simp <;> omega

theorem commandFault_predict {s : State} :
    commandFault .predict s = .clear ↔ s.gv = true ∧ s.implements s.cn.toNat = true := by
  simp only [commandFault]
  split_ifs <;> simp_all

theorem commandFault_encbit {b : Bool} {s : State} :
    commandFault (.encbit b) s = .clear ↔ (s.cstate = .ready ∨ s.cstate = .enc) ∧ s.pv = true := by
  rw [← mayEncode_iff]
  simp only [commandFault]
  split_ifs <;> simp_all

theorem commandFault_decbit {s : State} : commandFault .decbit s = .clear ↔ s.cstate = .dec ∧ s.pv = true := by
  simp only [commandFault]
  split_ifs <;> simp_all

theorem commandFault_seed {s : State} : commandFault .seed s = .clear ↔ s.cstate = .ready := by
  simp only [commandFault]
  split_ifs <;> simp_all

theorem gv_of_commandFault_update {s : State} (h : commandFault .update s = .clear) : s.gv = true := by
  simp only [commandFault, updateFault] at h
  split_ifs at h with hgv
  simpa using hgv

/-- A command does one of these things, and no other. -/
theorem exec_cases {i : Instr} {s t : State} (h : exec i s = .next t) : Answer i s t := by
  by_cases hf : s.fcode = .clear
  · rw [exec_of_clear i hf] at h
    obtain rfl := Host.Outcome.next.inj h
    split_ifs with hc
    · exact .effect hc
    · exact .faulted hc
  · rw [exec_faulted i s hf] at h
    obtain rfl := Host.Outcome.next.inj h
    exact .ignored hf

/-- An illegal word raises a fault or is ignored (spec/30_encoding.md R94). -/
theorem execIllegal_cases {s t : State} (h : execIllegal s = .next t) : t = s ∨ ∃ c, t = raiseFault c s := by
  obtain rfl := Host.Outcome.next.inj h
  by_cases hf : s.fcode = .clear
  · exact .inr ⟨_, unlessFaulted_clear _ hf⟩
  · exact .inl (unlessFaulted_faulted _ hf)

/-- All that a command word can do (R93, R94). -/
theorem execWord_cases {w : CommandWord} {s t : State} (h : execWord w s = .next t) :
    (∃ i, exec i s = .next t) ∨ t = s ∨ ∃ c, t = raiseFault c s := by
  unfold execWord at h
  split at h
  · exact .inl ⟨_, h⟩
  · exact .inr (execIllegal_cases h)

/-- A predicate that the queue and the replies do not enter, and that faults, reset, a fresh byte source and the
effect of every legal command keep, is kept by every step. -/
theorem step_keeps {P : State → Prop}
    (hport : ∀ s pending replies, P s → P { s with pending := pending, replies := replies })
    (hfault : ∀ s c, P s → P (raiseFault c s)) (hreset : ∀ s, P s → P (applyReset s))
    (hsupply : ∀ s bytes, P s → P (supplyInput bytes s))
    (heffect : ∀ i s, P s → commandFault i s = .clear → P (commandEffect i s))
    {s t : State} (hs : P s) (h : step s = .next t) : P t := by
  cases hp : s.pending with
  | nil =>
    simp only [step, takeNext, hp] at h
    exact Host.Outcome.next.inj h ▸ hs
  | cons a rest =>
    rw [Scope.step_of_pending_cons hp] at h
    have hu : P { s with pending := rest } := hport s rest s.replies hs
    generalize ({ s with pending := rest } : State) = u at h hu
    cases a with
    | command w =>
      rcases execWord_cases h with ⟨i, hi⟩ | rfl | ⟨c, rfl⟩
      · cases exec_cases hi with
        | ignored => exact hu
        | faulted => exact hfault u _ hu
        | effect hlegal => exact heffect i u hu hlegal
      · exact hu
      · exact hfault u c hu
    | readReg k =>
      simp only [takeAction, hostRead] at h
      split at h
      · exact Host.Outcome.next.inj h ▸ hport u u.pending _ hu
      · cases h
    | reset => exact Host.Outcome.next.inj h ▸ hreset u hu
    | supply bytes => exact Host.Outcome.next.inj h ▸ hsupply u bytes hu

/-! Which fields an effect can write. -/

/-- A renormalization step of the encoder writes the interval, `RCNT` and `OUT` (spec/41_coder.md R132); it moves as
many bytes as it counts. -/
theorem renormEncode_writes (b : Bool) (s : State) :
    ∃ lo hi n out, renormEncode b s = { s with min := lo, max := hi, rcnt := n, output := out } ∧
      ((out = s.output ∧ n = s.rcnt) ∨ ∃ v, out = s.output ++ [v] ∧ n = s.rcnt + 1) := by
  rcases Nat.lt_or_ge s.width Config.floor with h | h
  · exact ⟨_, _, _, _, renormEncode_of_narrow h, .inr ⟨_, rfl, rfl⟩⟩
  · exact ⟨_, _, _, _, renormEncode_of_wide h, .inl ⟨rfl, rfl⟩⟩

/-- A renormalization step of the decoder writes the interval, `VAL`, `RCNT`, `IPOS` and `CSTATE` (R133); it moves as
many bytes as it counts. -/
theorem renormDecode_writes (b : Bool) (s : State) :
    ∃ lo hi v n i c,
      renormDecode b s = { s with min := lo, max := hi, val := v, rcnt := n, ipos := i, cstate := c } ∧
      ((i = s.ipos ∧ n = s.rcnt) ∨ (i = s.ipos + 1 ∧ n = s.rcnt + 1)) := by
  rcases Nat.lt_or_ge s.width Config.floor with h | h
  · cases hv : s.input[s.ipos]? with
    | none => exact ⟨_, _, _, _, _, _, renormDecode_of_end h hv, .inl ⟨rfl, rfl⟩⟩
    | some v => exact ⟨_, _, _, _, _, _, renormDecode_of_byte h hv, .inr ⟨rfl, rfl⟩⟩
  · exact ⟨_, _, _, _, _, _, renormDecode_of_wide h, .inl ⟨rfl, rfl⟩⟩

theorem encbit_writes (b : Bool) (s : State) :
    ∃ lo hi n out,
      commandEffect (.encbit b) s = { s with
        min := lo, max := hi, rcnt := n, output := out, bit := b, bv := true, pv := false, cstate := .enc } ∧
      ((out = s.output ∧ n = s.rcnt) ∨ ∃ v, out = s.output ++ [v] ∧ n = s.rcnt + 1) := by
  obtain ⟨lo, hi, n, out, h, hmoved⟩ := renormEncode_writes b (narrow b (splitPoint s) s)
  exact ⟨lo, hi, n, out, by rw [commandEffect, h]; rfl, hmoved⟩

theorem decbit_writes (s : State) :
    ∃ lo hi v n i c,
      commandEffect .decbit s = { s with
        min := lo, max := hi, val := v, rcnt := n, ipos := i, cstate := c, bit := decodedBit s, bv := true, pv := false } ∧
      ((i = s.ipos ∧ n = s.rcnt) ∨ (i = s.ipos + 1 ∧ n = s.rcnt + 1)) := by
  obtain ⟨lo, hi, v, n, i, c, h, hmoved⟩ :=
    renormDecode_writes (decodedBit s) (latchBit (decodedBit s) (narrow (decodedBit s) (splitPoint s) s))
  exact ⟨lo, hi, v, n, i, c, by rw [commandEffect, h]; rfl, hmoved⟩

/-- `SEED` with three coded bytes left (R135). -/
theorem seed_of_three {s : State} {b0 b1 b2 : Byte} {rest : List Byte}
    (h : s.input.drop s.ipos = b0 :: b1 :: b2 :: rest) :
    commandEffect .seed s = { s with
      val := BitVec.ofNat 24 (b0.toNat * 65536 + b1.toNat * 256 + b2.toNat), ipos := s.ipos + 3, cstate := .dec } := by
  simp [commandEffect, seedEffect, h]

/-- `SEED` with fewer than three coded bytes left (R135). -/
theorem seed_of_short {s : State} (h : ∀ b0 b1 b2 rest, s.input.drop s.ipos ≠ b0 :: b1 :: b2 :: rest) :
    commandEffect .seed s = { s with ipos := s.input.length, cstate := .seederr } := by
  show seedEffect s = _
  unfold seedEffect
  split
  · exact absurd ‹_› (h _ _ _ _)
  · rfl

/-- `SEED` loads three bytes or fails (R135). -/
theorem seed_cases (s : State) :
    (∃ b0 b1 b2 rest, s.input.drop s.ipos = b0 :: b1 :: b2 :: rest ∧
      commandEffect .seed s = { s with
        val := BitVec.ofNat 24 (b0.toNat * 65536 + b1.toNat * 256 + b2.toNat), ipos := s.ipos + 3, cstate := .dec }) ∨
    commandEffect .seed s = { s with ipos := s.input.length, cstate := .seederr } := by
  by_cases h : ∃ b0 b1 b2 rest, s.input.drop s.ipos = b0 :: b1 :: b2 :: rest
  · obtain ⟨b0, b1, b2, rest, hd⟩ := h
    exact .inl ⟨b0, b1, b2, rest, hd, seed_of_three hd⟩
  · exact .inr (seed_of_short fun b0 b1 b2 rest hd => h ⟨b0, b1, b2, rest, hd⟩)

/-- `UPDATE` writes the node file, the cursor and the current node, and clears `BV` and `PV`
(spec/40_predictor.md R112). -/
theorem update_writes (s : State) :
    ∃ nf cur cn, commandEffect .update s = { s with nf := nf, cur := cur, cn := cn, bv := false, pv := false } := by
  have hclone : ∃ nf cur cn, cloneStep s = { s with nf := nf, cur := cur, cn := cn } := by
    unfold cloneStep
    split_ifs
    · exact ⟨_, _, _, rfl⟩
    · exact ⟨_, _, _, cloneTarget_eq s⟩
    · exact ⟨_, _, _, rfl⟩
  obtain ⟨nf, cur, cn, h⟩ := hclone
  exact ⟨_, _, _, by rw [commandEffect, enterNext_eq, recordBit_eq, h]⟩

end Sys2Proof.Proofs.Effects
end

section
/-! The registers and who writes them (spec/10_state.md sections 1 to 7): `STATUS`, the fault code, the writers of each
register, `RCNT` and `VAL`. -/

namespace Sys2Proof.Proofs.RegisterWriters

open Sys2Proof.Machine Sys2Proof.Safety Sys2Proof.Laws Sys2Proof.Proofs.Effects

/-! `STATUS` (R35). -/

theorem getLsbD_fieldAt {w : Nat} (pos : Nat) (x : BitVec w) (i : Nat) :
    (fieldAt pos x).getLsbD i = (decide (i < 32) && decide (pos ≤ i) && x.getLsbD (i - pos)) := by
  unfold fieldAt
  rw [BitVec.getLsbD_shiftLeft, BitVec.getLsbD_setWidth]
  by_cases h : i < 32
  · by_cases h' : pos ≤ i <;> simp [h, h', show i - pos < 32 by omega]
  · simp [h]

/-- A field is read back at its own bits. -/
theorem extract_fieldAt_same {w pos : Nat} (x : BitVec w) (h : pos + w ≤ 32) :
    (fieldAt pos x).extractLsb' pos w = x := by
  refine BitVec.eq_of_getLsbD_eq fun i hi => ?_
  rw [BitVec.getLsbD_extractLsb', getLsbD_fieldAt]
  simp [hi, show pos + i < 32 by omega]

/-- A field is 0 away from its bits. -/
theorem extract_fieldAt_disjoint {w pos a n : Nat} (x : BitVec w) (h : a + n ≤ pos ∨ pos + w ≤ a) :
    (fieldAt pos x).extractLsb' a n = 0#n := by
  refine BitVec.eq_of_getLsbD_eq fun i hi => ?_
  rw [BitVec.getLsbD_extractLsb', getLsbD_fieldAt]
  rcases h with h | h
  · simp [show ¬ pos ≤ a + i by omega]
  · simp [BitVec.getLsbD_of_ge x (a + i - pos) (by omega)]

theorem term_iff (s : State) :
    term s = true ↔ s.cstate = .dec ∧ (s.val.toNat : Int) = (s.max.toNat : Int) - 1 := by
  simp only [term, Bool.and_eq_true, decide_eq_true_eq]
  constructor <;> rintro ⟨hdec, hval⟩ <;> exact ⟨hdec, by omega⟩

theorem getLsbD_statusWord (s : State) (i : Nat) :
    (statusWord s).getLsbD i = ((fieldAt 12 s.fcode.code).getLsbD i || (fieldAt 8 s.cstate.code).getLsbD i ||
      (fieldAt 4 (BitVec.ofBool (term s))).getLsbD i || (fieldAt 3 (BitVec.ofBool s.gv)).getLsbD i ||
      (fieldAt 2 (BitVec.ofBool s.pv)).getLsbD i || (fieldAt 1 (BitVec.ofBool s.bv)).getLsbD i ||
      (fieldAt 0 (BitVec.ofBool s.bit)).getLsbD i) := by
  simp only [statusWord, BitVec.getLsbD_or]

theorem extract_statusWord (s : State) (a n : Nat) :
    (statusWord s).extractLsb' a n =
      (fieldAt 12 s.fcode.code).extractLsb' a n ||| (fieldAt 8 s.cstate.code).extractLsb' a n |||
      (fieldAt 4 (BitVec.ofBool (term s))).extractLsb' a n ||| (fieldAt 3 (BitVec.ofBool s.gv)).extractLsb' a n |||
      (fieldAt 2 (BitVec.ofBool s.pv)).extractLsb' a n ||| (fieldAt 1 (BitVec.ofBool s.bv)).extractLsb' a n |||
      (fieldAt 0 (BitVec.ofBool s.bit)).extractLsb' a n := by
  simp only [statusWord, BitVec.extractLsb'_or]

/-- Settles O11: each field of `STATUS` is read back at its bits, and the other fields are 0 there. -/
theorem statusWordLayout : Obligations.StatusWordLayout := by
  intro s
  have hbits := getLsbD_statusWord s
  have hfields := extract_statusWord s
  simp only [getLsbD_fieldAt] at hbits
  refine ⟨?_, ?_, ?_, ?_, ?_, ?_, ?_, ?_, ?_, ?_, rfl, rfl⟩
  · rw [hbits]; simp
  · rw [hbits]; simp
  · rw [hbits]; simp
  · rw [hbits]; simp
  · rw [← term_iff, hbits]; simp
  · rw [hfields]; simp [extract_fieldAt_disjoint]
  · rw [hfields]; simp [extract_fieldAt_disjoint, extract_fieldAt_same]
  · rw [hfields]; simp [extract_fieldAt_disjoint]
  · rw [hfields]; simp [extract_fieldAt_disjoint, extract_fieldAt_same]
  · rw [hfields]; simp [extract_fieldAt_disjoint]

/-! Reset (R39). -/

theorem hasResetValues_applyReset (s : State) : hasResetValues (applyReset s) :=
  ⟨rfl, rfl, rfl, rfl, rfl, rfl, rfl, rfl, rfl, rfl, rfl, rfl, rfl, rfl⟩

/-- Settles O12: the table of R39, field by field, for reset from any state. -/
theorem resetGivesTheResetValues : Obligations.ResetGivesTheResetValues :=
  ⟨hasResetValues_applyReset State.reset, fun s rest h =>
    ⟨applyReset { s with pending := rest }, Scope.step_of_pending_cons h, hasResetValues_applyReset _, rfl, rfl, rfl⟩⟩

/-! The fault code (R28). -/

/-- A faulted block ignores every command word, legal or not (spec/60_exceptions.md R180). -/
theorem execWord_faulted (w : CommandWord) {s : State} (h : s.fcode ≠ .clear) : execWord w s = .next s := by
  unfold execWord
  split
  · exact exec_faulted _ s h
  · rw [execIllegal, unlessFaulted_faulted _ h]

/-- A step of a faulted block keeps the fault code, or it is a reset, which clears it. -/
theorem step_fcode_of_faulted {s t : State} (hf : s.fcode ≠ .clear) (h : step s = .next t) :
    t.fcode = s.fcode ∨ ((∃ rest, s.pending = .reset :: rest) ∧ t.fcode = .clear) := by
  cases hp : s.pending with
  | nil =>
    simp only [step, takeNext, hp] at h
    exact .inl (Host.Outcome.next.inj h ▸ rfl)
  | cons a rest =>
    rw [Scope.step_of_pending_cons hp] at h
    cases a with
    | command w =>
      have hstay := h.symm.trans (execWord_faulted w (s := { s with pending := rest }) hf)
      exact .inl (Host.Outcome.next.inj hstay ▸ rfl)
    | readReg k =>
      simp only [takeAction, hostRead] at h
      split at h
      · exact .inl (Host.Outcome.next.inj h ▸ rfl)
      · cases h
    | reset => exact .inr ⟨⟨rest, rfl⟩, Host.Outcome.next.inj h ▸ rfl⟩
    | supply bytes => exact .inl (Host.Outcome.next.inj h ▸ rfl)

/-- Settles O9: the guard of every command word, and the one action that passes it. -/
theorem faultCodeIsSticky : Obligations.FaultCodeIsSticky :=
  ⟨fun _ w _ hf hp => (Scope.step_of_pending_command hp).trans (execWord_faulted w hf),
    fun _ _ h hf hne => (step_fcode_of_faulted hf h).resolve_left hne⟩

/-! The writers (R20 to R34). -/

/-- Settles O39: a command that changes a register is legal and has its effect, whose writes are listed per command. -/
theorem writersOfTheRegisters : Obligations.WritersOfTheRegisters := by
  intro i s t h
  cases exec_cases h with
  | ignored => simp
  | faulted => simp
  | effect hlegal =>
    cases i with
    | cinit => simp [commandEffect]
    | setnb n =>
      obtain ⟨hpos, hmax⟩ := commandFault_setnb.1 hlegal
      have hn : (BitVec.ofNat 20 n).toNat = n := by rw [BitVec.toNat_ofNat]; omega
      simp [commandEffect, hpos, hmax, hn]
    | flush => simp [commandEffect]
    | predict => simp [commandEffect]
    | update =>
      obtain ⟨nf, cur, cn, h⟩ := update_writes s
      simp [h]
    | encbit b =>
      obtain ⟨lo, hi, n, out, h, -⟩ := encbit_writes b s
      simp [h]
    | decbit =>
      obtain ⟨lo, hi, v, n, i, c, h, -⟩ := decbit_writes s
      simp [h]
    | finish => simp [commandEffect]
    | seed =>
      rcases seed_cases s with ⟨b0, b1, b2, rest, -, h⟩ | h <;> simp [h]

/-- Settles O36: only the two renormalizations count, one for each byte they move. -/
theorem rcntCountsMovedBytes : Obligations.RcntCountsMovedBytes := by
  intro i s t h
  cases exec_cases h with
  | ignored hfaulted => simp [hfaulted]
  | faulted hfault =>
    refine ⟨by simp, by simp, ?_, by simp⟩
    rintro rfl
    exact absurd rfl hfault
  | effect =>
    cases i with
    | cinit => simp [commandEffect]
    | setnb n => simp [commandEffect]
    | flush => simp [commandEffect]
    | predict => simp [commandEffect]
    | update =>
      obtain ⟨nf, cur, cn, h⟩ := update_writes s
      simp [h]
    | encbit b =>
      obtain ⟨lo, hi, n, out, h, hmoved⟩ := encbit_writes b s
      simpa [h] using hmoved
    | decbit =>
      obtain ⟨lo, hi, v, n, i, c, h, hmoved⟩ := decbit_writes s
      simpa [h] using hmoved
    | finish => simp [commandEffect]
    | seed =>
      rcases seed_cases s with ⟨b0, b1, b2, rest, -, h⟩ | h <;> simp [h]

/-! `VAL` (R46). -/

/-- The value is that of the last three bytes before the read position, first byte most significant (R46): what
`ValHoldsLastBytes` says of `VAL` in `DEC` and `ENDED`. -/
def LastBytes (input : List Byte) (ipos val : Nat) : Prop :=
  ∃ b0 b1 b2, 3 ≤ ipos ∧ input[ipos - 3]? = some b0 ∧ input[ipos - 2]? = some b1 ∧ input[ipos - 1]? = some b2 ∧
    val = b0.toNat * 65536 + b1.toNat * 256 + b2.toNat

theorem valHoldsLastBytes_iff (s : State) :
    ValHoldsLastBytes s ↔ (s.cstate = .dec ∨ s.cstate = .ended → LastBytes s.input s.ipos s.val.toNat) := Iff.rfl

/-- Folding the next byte in moves the history on by one byte. -/
theorem LastBytes.fold {input : List Byte} {ipos val : Nat} {v : Byte} (h : LastBytes input ipos val)
    (hv : input[ipos]? = some v) : LastBytes input (ipos + 1) (val % 65536 * 256 + v.toNat) := by
  obtain ⟨b0, b1, b2, hpos, -, h1, h2, rfl⟩ := h
  have hb1 := b1.isLt
  have hb2 := b2.isLt
  refine ⟨b1, b2, v, by omega, ?_, ?_, hv, by omega⟩
  · rwa [show ipos + 1 - 3 = ipos - 2 by omega]
  · rwa [show ipos + 1 - 2 = ipos - 1 by omega]

/-- `SEED` starts the history with the three bytes it takes. -/
theorem LastBytes.of_drop {input rest : List Byte} {ipos : Nat} {b0 b1 b2 : Byte}
    (h : input.drop ipos = b0 :: b1 :: b2 :: rest) :
    LastBytes input (ipos + 3) (b0.toNat * 65536 + b1.toNat * 256 + b2.toNat) := by
  have hget (k : Nat) : input[ipos + k]? = (b0 :: b1 :: b2 :: rest)[k]? := by rw [← h, List.getElem?_drop]
  exact ⟨b0, b1, b2, by omega, hget 0, hget 1, hget 2, rfl⟩

/-- A renormalization step of the decoder keeps the history: it takes no byte, or folds the next one in (R133). -/
theorem lastBytes_renormDecode {b : Bool} {s : State} (h : LastBytes s.input s.ipos s.val.toNat) :
    LastBytes (renormDecode b s).input (renormDecode b s).ipos (renormDecode b s).val.toNat := by
  rcases Nat.lt_or_ge s.width Config.floor with hw | hw
  · cases hv : s.input[s.ipos]? with
    | none => rwa [renormDecode_of_end hw hv]
    | some v =>
      rw [renormDecode_of_byte hw hv, shiftInterval_val, foldByte_val_toNat]
      exact h.fold hv
  · rwa [renormDecode_of_wide hw]

/-- Settles O46: only `SEED` and `DECBIT` reach the states it speaks of, and each keeps the history. -/
theorem valIsTheLastThreeBytes : Obligations.ValIsTheLastThreeBytes := by
  intro i s t hs h
  cases exec_cases h with
  | ignored => exact hs
  | faulted => exact hs
  | effect hlegal =>
    cases i with
    | cinit => simp [ValHoldsLastBytes, commandEffect]
    | setnb n => exact hs
    | flush => exact hs
    | predict => exact hs
    | update =>
      obtain ⟨nf, cur, cn, h⟩ := update_writes s
      rw [h]; exact hs
    | encbit b => simp [ValHoldsLastBytes, commandEffect]
    | decbit =>
      have hdec : s.cstate = .dec := (commandFault_decbit.1 hlegal).1
      exact fun _ => lastBytes_renormDecode (hs (.inl hdec))
    | finish => simp [ValHoldsLastBytes, commandEffect]
    | seed =>
      rcases seed_cases s with ⟨b0, b1, b2, rest, hd, h⟩ | h
      · have hval : (BitVec.ofNat 24 (b0.toNat * 65536 + b1.toNat * 256 + b2.toNat)).toNat =
            b0.toNat * 65536 + b1.toNat * 256 + b2.toNat := by
          rw [BitVec.toNat_ofNat]; omega
        have hlast := LastBytes.of_drop hd
        rw [← hval] at hlast
        rw [valHoldsLastBytes_iff, h]
        exact fun _ => hlast
      · simp [ValHoldsLastBytes, h]

end Sys2Proof.Proofs.RegisterWriters
end

section
/-! The canonical form of the node file (spec/10_state.md R34, log entries 3 and 20): equal contents are equal lists, and
every step keeps it. -/

namespace Sys2Proof.Proofs.CanonicalFile

open Sys2Proof.Machine Sys2Proof.Laws Sys2Proof.Proofs.Effects

theorem canonicalFrom_cons {lo : Option Nat} {b : Nat} {m : Node} {rest : NodeFile}
    (h : canonicalFrom lo ((b, m) :: rest) = true) : m ≠ unlistedNode b ∧ canonicalFrom (some b) rest = true := by
  simp only [canonicalFrom, Bool.and_eq_true, bne_iff_ne] at h
  obtain ⟨⟨-, hm⟩, hrest⟩ := h
  exact ⟨hm, hrest⟩

/-- An address that is not above a canonical file's bound is not listed in it. -/
theorem nodeAt_of_le {lo a : Nat} {nf : NodeFile} (h : canonicalFrom (some lo) nf = true) (ha : a ≤ lo) :
    nodeAt nf a = unlistedNode a :=
  nodeAt_unlisted fun e he => by
    obtain ⟨hlo, -, -⟩ := canonicalFrom_mem h e he
    have := hlo lo rfl
    omega

theorem nodeAt_cons_self (b : Nat) (m : Node) (rest : NodeFile) : nodeAt ((b, m) :: rest) b = m := by
  simp [nodeAt]

theorem nodeAt_cons_other {a b : Nat} (m : Node) (rest : NodeFile) (h : a ≠ b) :
    nodeAt ((b, m) :: rest) a = nodeAt rest a := by
  simp [nodeAt, h]

/-- Canonical files that read alike do not start at different addresses: the lower one would be listed in one file
only. -/
theorem not_lt_of_nodeAt_eq {lo lo' : Option Nat} {b c : Nat} {m k : Node} {f g : NodeFile}
    (hf : canonicalFrom lo ((b, m) :: f) = true) (hg : canonicalFrom lo' ((c, k) :: g) = true)
    (h : ∀ a, nodeAt ((b, m) :: f) a = nodeAt ((c, k) :: g) a) : ¬ b < c := by
  intro hbc
  obtain ⟨hm, -⟩ := canonicalFrom_cons hf
  obtain ⟨-, hrest⟩ := canonicalFrom_cons hg
  have hread := h b
  rw [nodeAt_cons_self, nodeAt_cons_other k g (by omega), nodeAt_of_le hrest (by omega)] at hread
  exact hm hread

theorem eq_nil_of_nodeAt_eq_unlisted {lo : Option Nat} {f : NodeFile} (hf : canonicalFrom lo f = true)
    (h : ∀ a, nodeAt f a = unlistedNode a) : f = [] := by
  cases f with
  | nil => rfl
  | cons e f =>
    obtain ⟨b, m⟩ := e
    exact absurd ((nodeAt_cons_self b m f).symm.trans (h b)) (canonicalFrom_cons hf).1

theorem eq_of_nodeAt_eq {lo lo' : Option Nat} {f g : NodeFile} (hf : canonicalFrom lo f = true)
    (hg : canonicalFrom lo' g = true) (h : ∀ a, nodeAt f a = nodeAt g a) : f = g := by
  induction f generalizing lo lo' g with
  | nil => exact (eq_nil_of_nodeAt_eq_unlisted hg fun a => (h a).symm).symm
  | cons e f ih =>
    obtain ⟨b, m⟩ := e
    cases g with
    | nil => exact eq_nil_of_nodeAt_eq_unlisted hf h
    | cons e' g =>
      obtain ⟨c, k⟩ := e'
      have hle := not_lt_of_nodeAt_eq hf hg h
      have hge := not_lt_of_nodeAt_eq hg hf fun a => (h a).symm
      obtain rfl : b = c := by omega
      have hm : m = k := by simpa [nodeAt_cons_self] using h b
      obtain ⟨-, hf'⟩ := canonicalFrom_cons hf
      obtain ⟨-, hg'⟩ := canonicalFrom_cons hg
      have htail : f = g := ih hf' hg' fun a => by
        by_cases hab : a = b
        · rw [nodeAt_of_le hf' hab.le, nodeAt_of_le hg' hab.le]
        · simpa [nodeAt_cons_other _ _ hab] using h a
      rw [hm, htail]

/-- Settles O18, by induction on the two lists: their first addresses agree, then their tails read alike. -/
theorem canonicalNodeFilesAreEqual : Obligations.CanonicalNodeFilesAreEqual :=
  fun _ _ hf hg h => eq_of_nodeAt_eq hf hg h

/-! Every step keeps the form. -/

theorem wf_cloneTarget {s : State} (h : s.nf.wf = true) : (cloneTarget s).nf.wf = true := by
  unfold cloneTarget
  exact wf_setNode _ _ (wf_setNode _ _ (wf_setNode _ _ h))

theorem wf_cloneStep {s : State} (h : s.nf.wf = true) : (cloneStep s).nf.wf = true := by
  unfold cloneStep
  split_ifs
  · exact wf_flushGraph h
  · exact wf_cloneTarget h
  · exact h

theorem wf_recordBit (n : NodeAddr) (b : Bool) {s : State} (h : s.nf.wf = true) : (recordBit n b s).nf.wf = true :=
  wf_setNode _ _ h

theorem wf_enterNext (n : NodeAddr) (b : Bool) {s : State} (h : s.nf.wf = true) : (enterNext n b s).nf.wf = true := by
  unfold enterNext
  split
  · exact wf_flushGraph h
  · exact h

theorem wf_commandEffect (i : Instr) {s : State} (h : s.nf.wf = true) : (commandEffect i s).nf.wf = true := by
  cases i with
  | cinit => exact h
  | setnb n => exact h
  | flush => exact wf_flushGraph h
  | predict => exact h
  | update => exact wf_enterNext _ _ (wf_recordBit _ _ (wf_cloneStep h))
  | encbit b =>
    obtain ⟨lo, hi, n, out, he, -⟩ := encbit_writes b s
    rw [he]; exact h
  | decbit =>
    obtain ⟨lo, hi, v, n, i, c, he, -⟩ := decbit_writes s
    rw [he]; exact h
  | finish => exact h
  | seed =>
    rcases seed_cases s with ⟨b0, b1, b2, rest, -, he⟩ | he <;> rw [he] <;> exact h

/-- Settles O44: node writes and flushes keep the form, and nothing else writes the node file. -/
theorem stepKeepsTheNodeFileCanonical : Obligations.StepKeepsTheNodeFileCanonical :=
  fun _ _ hs h => step_keeps (P := fun s => s.nf.wf = true) (fun _ _ _ h => h) (fun _ _ h => h)
    (fun _ h => wf_applyReset h) (fun _ _ h => h) (fun i _ h _ => wf_commandEffect i h) hs h

end Sys2Proof.Proofs.CanonicalFile
end

section
/-! The interval of the coder (spec/10_state.md R40, R41): narrowing leaves room on both sides of the split point,
renormalization opens the interval again, so every command keeps it sound. -/

namespace Sys2Proof.Proofs.SoundInterval

open Sys2Proof.Machine Sys2Proof.Safety Sys2Proof.Laws Sys2Proof.Proofs.Effects

/-- With three values or more to split, both parts keep a value, and the upper part keeps two
(spec/41_coder.md R130). -/
theorem mid_inside {lo hi : Nat} {p : Weight} (h : lo + 3 ≤ hi) (hp : p ≤ 1) :
    lo + 1 ≤ mid lo hi p ∧ mid lo hi p + 2 ≤ hi := by
  have hscale := scale_le (range := hi - lo - 1) hp
  unfold mid
  simp only
  split_ifs <;> omega

/-- `Shift()` leaves at least 256 values below the ceiling, whatever the bounds were (R131). -/
theorem shiftInterval_wide (s : State) :
    (shiftInterval s).min.toNat + 256 ≤ (shiftInterval s).max.toNat ∧ (shiftInterval s).max.toNat ≤ 2 ^ 24 := by
  rw [shiftInterval_min_toNat, shiftInterval_max_toNat]
  split_ifs <;> omega

/-- The soundness of an interval depends on its bounds and on `CSTATE` only. -/
theorem intervalOk_congr {s t : State} (h : IntervalOk s) (hmin : t.min = s.min) (hmax : t.max = s.max)
    (hstate : t.cstate = s.cstate) : IntervalOk t where
  order := by rw [hmin, hmax]; exact h.order
  ceiling := by rw [hmax]; exact h.ceiling
  ready := by rw [hmin, hmax, hstate]; exact h.ready
  wide := by rw [State.width, hmin, hmax, hstate]; exact h.wide
  fin := by rw [hmin, hmax, hstate]; exact h.fin

/-- A coder between streams is sound. -/
theorem intervalOk_ready {s : State} (hmin : s.min = 0) (hmax : s.max = BitVec.ofNat 25 Config.top)
    (hstate : s.cstate = .ready) : IntervalOk s where
  order := by rw [hmin, hmax]; decide
  ceiling := by rw [hmax]; decide
  ready := fun _ => by rw [hmin, hmax]; decide
  wide := by simp [hstate]
  fin := by simp [hstate]

/-- A coder that has 256 values or more is sound inside a stream. -/
theorem intervalOk_wide {s : State} (hwide : s.min.toNat + 256 ≤ s.max.toNat) (hceiling : s.max.toNat ≤ Config.top)
    (hready : s.cstate ≠ .ready) (hfin : s.cstate ≠ .fin) : IntervalOk s where
  order := by omega
  ceiling := hceiling
  ready := fun h => absurd h hready
  wide := fun _ => by unfold State.width Config.floor; omega
  fin := fun h => absurd h hfin

/-- A coder whose stream has ended needs the order of its bounds only. -/
theorem intervalOk_ended {s : State} (horder : s.min.toNat < s.max.toNat) (hceiling : s.max.toNat ≤ Config.top)
    (hstate : s.cstate = .ended ∨ s.cstate = .seederr) : IntervalOk s where
  order := horder
  ceiling := hceiling
  ready := by rcases hstate with h | h <;> simp [h]
  wide := by rcases hstate with h | h <;> simp [h]
  fin := by rcases hstate with h | h <;> simp [h]

/-- A sound coder that may code a bit has 256 values or more (R41). -/
theorem wide_of_coding {s : State} (h : IntervalOk s) (hstate : s.cstate = .ready ∨ s.cstate = .enc ∨ s.cstate = .dec) :
    s.min.toNat + 256 ≤ s.max.toNat := by
  rcases hstate with hs | hs
  · obtain ⟨hmin, hmax⟩ := h.ready hs
    rw [hmin, hmax]; decide
  · have hwide := h.wide hs
    unfold State.width Config.floor at hwide
    omega

/-- The bounds after narrowing for a coded bit: some value is left below the split point, two from it on, and none is
above the ceiling (R130, R132). -/
structure Narrowed (b : Bool) (s : State) : Prop where
  order : s.min.toNat < s.max.toNat
  correctedOrder : b = true → s.min.toNat + 2 ≤ s.max.toNat
  ceiling : s.max.toNat ≤ Config.top

theorem narrowed_narrow {s : State} (b : Bool) (hwide : s.min.toNat + 256 ≤ s.max.toNat)
    (hceiling : s.max.toNat ≤ Config.top) (hp : s.p ≤ 1) : Narrowed b (narrow b (splitPoint s) s) := by
  obtain ⟨hlow, hhigh⟩ := mid_inside (lo := s.min.toNat) (hi := s.max.toNat) (by omega) hp
  change s.min.toNat + 1 ≤ splitPoint s at hlow
  change splitPoint s + 2 ≤ s.max.toNat at hhigh
  have htop : Config.top = 2 ^ 24 := rfl
  cases b with
  | true =>
    have hmin := narrow_min_of_true (s := s) (m := splitPoint s) (by omega)
    have hmax : (narrow true (splitPoint s) s).max = s.max := rfl
    exact ⟨by rw [hmin, hmax]; omega, fun _ => by rw [hmin, hmax]; omega, hceiling⟩
  | false =>
    have hmax := narrow_max_of_false (s := s) (m := splitPoint s) (by omega)
    have hmin : (narrow false (splitPoint s) s).min = s.min := rfl
    exact ⟨by rw [hmin, hmax]; omega, by simp, by rw [hmax]; omega⟩

/-- Renormalization of the encoder ends with 256 values or more (R136). -/
theorem renormEncode_wide {b : Bool} {s : State} (h : Narrowed b s) :
    (renormEncode b s).min.toNat + 256 ≤ (renormEncode b s).max.toNat ∧
      (renormEncode b s).max.toNat ≤ Config.top := by
  rcases Nat.lt_or_ge s.width Config.floor with hw | hw
  · rw [renormEncode_of_narrow hw]
    exact shiftInterval_wide _
  · rw [renormEncode_of_wide hw]
    have hceiling := h.ceiling
    unfold State.width Config.floor at hw
    omega

/-- Renormalization of the decoder ends with 256 values or more, or in `ENDED` with the bounds in order
(R133, R136). -/
theorem intervalOk_renormDecode {b : Bool} {s : State} (h : Narrowed b s) (hdec : s.cstate = .dec) :
    IntervalOk (renormDecode b s) := by
  have horder := h.order
  have hceiling := h.ceiling
  rcases Nat.lt_or_ge s.width Config.floor with hw | hw
  · cases hv : s.input[s.ipos]? with
    | none =>
      have hcorrected : s.min.toNat < (correct b s).max.toNat ∧ (correct b s).max.toNat ≤ Config.top := by
        rw [correct_max_toNat]
        cases b with
        | true => have := h.correctedOrder rfl; simp only [if_true]; omega
        | false => exact ⟨horder, hceiling⟩
      rw [renormDecode_of_end hw hv]
      exact intervalOk_ended hcorrected.1 hcorrected.2 (.inl rfl)
    | some v =>
      rw [renormDecode_of_byte hw hv]
      obtain ⟨hwide, htop⟩ := shiftInterval_wide (foldByte v (countStep { correct b s with ipos := s.ipos + 1 }))
      exact intervalOk_wide hwide htop (by simp [hdec]) (by simp [hdec])
  · rw [renormDecode_of_wide hw]
    unfold State.width Config.floor at hw
    exact intervalOk_wide (by omega) hceiling (by simp [hdec]) (by simp [hdec])

/-- `FINISH` leaves the one value `MAX - 1` (R134). -/
theorem intervalOk_finish {s : State} (h : IntervalOk s) : IntervalOk (commandEffect .finish s) := by
  have horder := h.order
  have hceiling := h.ceiling
  have htop : Config.top = 2 ^ 24 := rfl
  have hmin : (commandEffect .finish s).min.toNat + 1 = (commandEffect .finish s).max.toNat := by
    simp only [commandEffect, BitVec.toNat_ofNat]
    omega
  exact ⟨by omega, hceiling, by simp [commandEffect], by simp [commandEffect], fun _ => hmin⟩

/-- Every legal command keeps the interval sound, for every probability up to 1 (R40, R41). -/
theorem intervalOk_commandEffect {i : Instr} {s : State} (h : IntervalOk s) (hp : s.pv = true → s.p ≤ 1)
    (hlegal : commandFault i s = .clear) : IntervalOk (commandEffect i s) := by
  cases i with
  | cinit => exact intervalOk_ready rfl rfl rfl
  | setnb n => exact intervalOk_congr h rfl rfl rfl
  | flush => exact intervalOk_congr h rfl rfl rfl
  | predict => exact intervalOk_congr h rfl rfl rfl
  | update =>
    obtain ⟨nf, cur, cn, he⟩ := update_writes s
    rw [he]
    exact intervalOk_congr h rfl rfl rfl
  | encbit b =>
    obtain ⟨hstate, hpv⟩ := commandFault_encbit.1 hlegal
    have hwide := wide_of_coding h (by tauto)
    obtain ⟨hopen, hceiling⟩ := renormEncode_wide (narrowed_narrow b hwide h.ceiling (hp hpv))
    exact intervalOk_wide hopen hceiling (by simp [commandEffect]) (by simp [commandEffect])
  | decbit =>
    obtain ⟨hstate, hpv⟩ := commandFault_decbit.1 hlegal
    obtain ⟨horder, hcorrected, hceiling⟩ :=
      narrowed_narrow (decodedBit s) (wide_of_coding h (by tauto)) h.ceiling (hp hpv)
    exact intervalOk_renormDecode ⟨horder, hcorrected, hceiling⟩ hstate
  | finish => exact intervalOk_finish h
  | seed =>
    have hwide := wide_of_coding h (.inl (commandFault_seed.1 hlegal))
    rcases seed_cases s with ⟨b0, b1, b2, rest, -, he⟩ | he
    · rw [he]
      exact intervalOk_wide hwide h.ceiling (by simp) (by simp)
    · rw [he]
      exact intervalOk_ended h.order h.ceiling (.inr rfl)

/-- Settles O42: a fault changes no bound, and every legal command keeps the interval sound. -/
theorem commandsKeepTheIntervalSound : Obligations.CommandsKeepTheIntervalSound := by
  intro i s t hs hp h
  cases exec_cases h with
  | ignored => exact hs
  | faulted => exact intervalOk_congr hs rfl rfl rfl
  | effect hlegal => exact intervalOk_commandEffect hs (fun hpv => (hp hpv).2) hlegal

end Sys2Proof.Proofs.SoundInterval
end

section
/-! The state graph (spec/10_state.md R42 to R45): `UPDATE` keeps it sound through its stages. Inside the command the
cursor may stand at the budget, so the stages are about the nodes in use alone. -/

namespace Sys2Proof.Proofs.SoundGraph

open Sys2Proof.Machine Sys2Proof.Safety Sys2Proof.Laws Sys2Proof.Proofs.Effects Sys2Proof.Proofs.CanonicalFile

/-- The node part of `GraphOk`: every node in use under a cursor is sound. -/
def NodesOk (cur : Nat) (nf : NodeFile) : Prop := ∀ a, InUse cur a → NodeOk cur a (nodeAt nf a)

theorem graphOk_iff {s : State} :
    GraphOk s ↔ s.cur.toNat < s.nb.toNat ∧ InUse s.cur.toNat s.cn.toNat ∧ NodesOk s.cur.toNat s.nf :=
  ⟨fun h => ⟨h.cursor, h.current, h.nodes⟩, fun ⟨hcursor, hcurrent, hnodes⟩ => ⟨hcursor, hcurrent, hnodes⟩⟩

/-- The soundness of a graph depends on the node file, the cursor, the current node and the budget only. -/
theorem graphOk_congr {s t : State} (h : GraphOk s) (hnf : t.nf = s.nf) (hcur : t.cur = s.cur) (hcn : t.cn = s.cn)
    (hnb : t.nb = s.nb) : GraphOk t := by
  rw [graphOk_iff, hnf, hcur, hcn, hnb]
  exact graphOk_iff.1 h

/-! One node. -/

theorem nodeOk_mono {c c' a : Nat} {m : Node} (hc : c ≤ c') (h : NodeOk c a m) : NodeOk c' a m :=
  ⟨h.w0_pos, h.w1_pos, InUse_mono hc h.e0_inUse, InUse_mono hc h.e1_inUse, h.e0_ne, h.e1_ne⟩

theorem nodeOk_weight_pos {c a : Nat} {m : Node} (h : NodeOk c a m) (b : Bool) : 0 < m.weight b := by
  cases b
  · exact h.w0_pos
  · exact h.w1_pos

theorem nodeOk_edge_inUse {c a : Nat} {m : Node} (h : NodeOk c a m) (b : Bool) : InUse c (m.edge b).toNat := by
  cases b
  · exact h.e0_inUse
  · exact h.e1_inUse

theorem nodeOk_setWeight {c a : Nat} {m : Node} (h : NodeOk c a m) (b : Bool) {w : Weight} (hw : 0 < w) :
    NodeOk c a (m.setWeight b w) := by
  obtain ⟨h0, h1, he0, he1, hne0, hne1⟩ := h
  cases b
  · exact ⟨hw, h1, he0, he1, hne0, hne1⟩
  · exact ⟨h0, hw, he0, he1, hne0, hne1⟩

theorem nodeOk_setEdge {c a : Nat} {m : Node} (h : NodeOk c a m) (b : Bool) {e : NodeAddr} (he : InUse c e.toNat)
    (hne : e.toNat ≠ a) : NodeOk c a (m.setEdge b e) := by
  obtain ⟨h0, h1, he0, he1, hne0, hne1⟩ := h
  cases b
  · exact ⟨h0, h1, he, he1, hne, hne1⟩
  · exact ⟨h0, h1, he0, he, hne0, hne⟩

/-! The node file. -/

/-- Writing a sound node keeps the nodes in use sound. -/
theorem NodesOk.put {cur a : Nat} {nf : NodeFile} {m : Node} (h : NodesOk cur nf) (hw : nf.wf = true)
    (hm : NodeOk cur a m) : NodesOk cur (putNode a m nf) := by
  intro c hc
  by_cases hca : c = a
  · subst hca
    rwa [nodeAt_putNode_same c m hw]
  · rw [nodeAt_putNode_other nf m hca]
    exact h c hc

/-- The slot at the cursor is the one new node in use when the cursor moves on (spec/10_state.md R32). -/
theorem inUse_succ {cur a : Nat} : InUse (cur + 1) a ↔ InUse cur a ∨ a = Config.poolBase + cur := by
  unfold InUse
  constructor
  · rintro (h | ⟨h1, h2⟩)
    · exact .inl (.inl h)
    · rcases Nat.lt_or_ge a (Config.poolBase + cur) with hlt | hge
      · exact .inl (.inr ⟨h1, hlt⟩)
      · exact .inr (by omega)
  · rintro ((h | ⟨h1, h2⟩) | rfl)
    · exact .inl h
    · exact .inr ⟨h1, by omega⟩
    · exact .inr ⟨by omega, by omega⟩

/-- The slot at the cursor is not in use (R32). -/
theorem ne_slot_of_inUse {cur a : Nat} (h : InUse cur a) : a ≠ Config.poolBase + cur := by
  rintro rfl
  rcases h with h | ⟨-, h⟩
  · have := isBase_iff.1 h
    unfold Config.poolBase at this
    omega
  · omega

/-- Writing a sound node at the slot of the cursor and moving the cursor on keeps the nodes in use sound. -/
theorem NodesOk.grow {cur : Nat} {nf : NodeFile} {m : Node} (h : NodesOk cur nf) (hw : nf.wf = true)
    (hm : NodeOk (cur + 1) (Config.poolBase + cur) m) :
    NodesOk (cur + 1) (putNode (Config.poolBase + cur) m nf) := by
  intro c hc
  rcases inUse_succ.1 hc with hold | rfl
  · rw [nodeAt_putNode_other nf m (ne_slot_of_inUse hold)]
    exact nodeOk_mono (by omega) (h c hold)
  · rwa [nodeAt_putNode_same _ m hw]

/-! The stages of `UPDATE` (spec/40_predictor.md R112). -/

/-- The address that a clone takes (R112, step 2). -/
def slot (s : State) : NodeAddr := BitVec.ofNat 20 (slotAddr s)

/-- With the cursor below a legal budget the slot at the cursor has a node address. -/
theorem toNat_slot {s : State} (hcur : s.cur.toNat < s.nb.toNat) (hnb : s.nb.toNat ≤ Config.nbMax) :
    (slot s).toNat = Config.poolBase + s.cur.toNat := by
  unfold Config.nbMax at hnb
  rw [slot, BitVec.toNat_ofNat]
  unfold slotAddr Config.poolBase
  omega

/-- With the cursor below a legal budget it can move on. -/
theorem toNat_cur_succ {s : State} (hcur : s.cur.toNat < s.nb.toNat) : (s.cur + 1).toNat = s.cur.toNat + 1 := by
  have := s.nb.isLt
  rw [BitVec.toNat_add, show (1 : BitVec 20).toNat = 1 from rfl]
  omega

theorem poolOverflows_eq_false {s : State} (hcur : s.cur.toNat < s.nb.toNat) : poolOverflows s = false := by
  simp only [poolOverflows, decide_eq_false_iff_not]
  omega

/-- The share of the target's weights that a clone takes is a proper part (R114). -/
theorem ratio_proper {s : State} (h : wantsClone s = true) :
    0 < Num.ratio (usedWeight s) (targetTotal s) ∧ Num.ratio (usedWeight s) (targetTotal s) < 1 := by
  simp only [wantsClone, Num.cloneWanted, Bool.and_eq_true, decide_eq_true_eq] at h
  obtain ⟨hused, htotal⟩ := h
  unfold Num.threshold at hused
  unfold Num.bigThres at htotal
  unfold Num.ratio
  exact ⟨by apply div_pos <;> linarith, by rw [div_lt_one] <;> linarith⟩

/-- A proper part of a positive weight is positive and leaves a positive rest (R114). -/
theorem portion_remainder_pos {w r : Weight} (hw : 0 < w) (h0 : 0 < r) (h1 : r < 1) :
    0 < Num.portion w r ∧ 0 < Num.remainder w (Num.portion w r) := by
  unfold Num.portion Num.remainder
  exact ⟨mul_pos hw h0, by nlinarith⟩

/-! The cloning writes one by one (R112, step 2): the new node, the rest that the target keeps, the redirected edge. -/

/-- The part of a weight of the target that moves to the new node. -/
def movedShare (s : State) (w : Weight) : Weight := Num.portion w (Num.ratio (usedWeight s) (targetTotal s))

/-- The new node. -/
def slotNode (s : State) : Node where
  w0 := movedShare s (targetNode s).w0
  w1 := movedShare s (targetNode s).w1
  e0 := (targetNode s).e0
  e1 := (targetNode s).e1

/-- The node file once the new node is written. -/
def slotFile (s : State) : NodeFile := putNode (slot s).toNat (slotNode s) s.nf

/-- What the target keeps. -/
def keptNode (s : State) : Node where
  w0 := Num.remainder (targetNode s).w0 (movedShare s (targetNode s).w0)
  w1 := Num.remainder (targetNode s).w1 (movedShare s (targetNode s).w1)
  e0 := (nodeAt (slotFile s) (targetAddr s).toNat).e0
  e1 := (nodeAt (slotFile s) (targetAddr s).toNat).e1

/-- The node file once the target is written too. -/
def keptFile (s : State) : NodeFile := putNode (targetAddr s).toNat (keptNode s) (slotFile s)

/-- The current node, redirected to the new node. -/
def redirectedNode (s : State) : Node := (nodeAt (keptFile s) s.cn.toNat).setEdge s.bit (slot s)

/-- The node file after the three writes. -/
theorem cloneTarget_nf (s : State) : (cloneTarget s).nf = putNode s.cn.toNat (redirectedNode s) (keptFile s) := rfl

theorem wf_putNode_addr {nf : NodeFile} (a : NodeAddr) (m : Node) (h : nf.wf = true) :
    (putNode a.toNat m nf).wf = true := wf_putNode m h a.isLt

theorem wf_slotFile {s : State} (h : s.nf.wf = true) : (slotFile s).wf = true := wf_putNode_addr _ _ h

theorem wf_keptFile {s : State} (h : s.nf.wf = true) : (keptFile s).wf = true := wf_putNode_addr _ _ (wf_slotFile h)

theorem inUse_targetAddr {s : State} (hcn : InUse s.cur.toNat s.cn.toNat) (h : NodesOk s.cur.toNat s.nf) :
    InUse s.cur.toNat (targetAddr s).toNat :=
  nodeOk_edge_inUse (h _ hcn) s.bit

section
variable {s : State} (hw : s.nf.wf = true) (hnb : s.nb.toNat ≤ Config.nbMax) (hg : GraphOk s)
include hw hnb hg

/-- The new node is sound, so the nodes in use are sound with it. -/
theorem nodesOk_slotFile (hclone : wantsClone s = true) : NodesOk (s.cur.toNat + 1) (slotFile s) := by
  have hold : NodeOk s.cur.toNat (targetAddr s).toNat (targetNode s) :=
    hg.nodes _ (inUse_targetAddr hg.current hg.nodes)
  obtain ⟨hr0, hr1⟩ := ratio_proper hclone
  have hnew : NodeOk (s.cur.toNat + 1) (Config.poolBase + s.cur.toNat) (slotNode s) :=
    { w0_pos := (portion_remainder_pos hold.w0_pos hr0 hr1).1
      w1_pos := (portion_remainder_pos hold.w1_pos hr0 hr1).1
      e0_inUse := InUse_mono (by omega) hold.e0_inUse
      e1_inUse := InUse_mono (by omega) hold.e1_inUse
      e0_ne := ne_slot_of_inUse hold.e0_inUse
      e1_ne := ne_slot_of_inUse hold.e1_inUse }
  rw [slotFile, toNat_slot hg.cursor hnb]
  exact NodesOk.grow hg.nodes hw hnew

/-- What the target keeps is sound. -/
theorem nodesOk_keptFile (hclone : wantsClone s = true) : NodesOk (s.cur.toNat + 1) (keptFile s) := by
  have htarget := inUse_targetAddr hg.current hg.nodes
  have hold : NodeOk s.cur.toNat (targetAddr s).toNat (targetNode s) := hg.nodes _ htarget
  have hfile := nodesOk_slotFile hw hnb hg hclone
  obtain ⟨hr0, hr1⟩ := ratio_proper hclone
  obtain ⟨-, -, he0, he1, hne0, hne1⟩ := hfile _ (InUse_mono (by omega) htarget)
  exact hfile.put (wf_slotFile hw)
    { w0_pos := (portion_remainder_pos hold.w0_pos hr0 hr1).2
      w1_pos := (portion_remainder_pos hold.w1_pos hr0 hr1).2
      e0_inUse := he0
      e1_inUse := he1
      e0_ne := hne0
      e1_ne := hne1 }

/-- The cloning writes keep the nodes in use sound, the new one included. -/
theorem nodesOk_cloneTarget (hclone : wantsClone s = true) : NodesOk (s.cur.toNat + 1) (cloneTarget s).nf := by
  have hfile := nodesOk_keptFile hw hnb hg hclone
  have hslot : (slot s).toNat = Config.poolBase + s.cur.toNat := toNat_slot hg.cursor hnb
  have hnode := hfile _ (InUse_mono (by omega) hg.current)
  have hin : InUse (s.cur.toNat + 1) (slot s).toNat := inUse_succ.2 (.inr hslot)
  have hne : (slot s).toNat ≠ s.cn.toNat := hslot ▸ (ne_slot_of_inUse hg.current).symm
  rw [cloneTarget_nf]
  exact hfile.put (wf_keptFile hw) (nodeOk_setEdge hnode s.bit hin hne)

end

/-- After step 2 of `UPDATE` the current node is in use and the nodes in use are sound, under the cursor that the step
leaves. -/
theorem graph_cloneStep {s : State} (hw : s.nf.wf = true) (hnb : s.nb.toNat ≤ Config.nbMax) (hg : GraphOk s) :
    InUse (cloneStep s).cur.toNat s.cn.toNat ∧ NodesOk (cloneStep s).cur.toNat (cloneStep s).nf ∧
      (cloneStep s).nb = s.nb := by
  cases hclone : wantsClone s with
  | false =>
    rw [cloneStep_of_no_clone hclone]
    exact ⟨hg.current, hg.nodes, rfl⟩
  | true =>
    have hcursor : (cloneTarget s).cur.toNat = s.cur.toNat + 1 := toNat_cur_succ hg.cursor
    rw [cloneStep_of_clone hclone (poolOverflows_eq_false hg.cursor), hcursor]
    exact ⟨InUse_mono (by omega) hg.current, nodesOk_cloneTarget hw hnb hg hclone, rfl⟩

/-- Step 3 of `UPDATE` keeps the nodes in use sound. -/
theorem nodesOk_recordBit {n : NodeAddr} {b : Bool} {s : State} (hw : s.nf.wf = true)
    (h : NodesOk s.cur.toNat s.nf) (hn : InUse s.cur.toNat n.toNat) :
    NodesOk s.cur.toNat (recordBit n b s).nf := by
  have hnode : NodeOk s.cur.toNat n.toNat (s.node n) := h _ hn
  have hpos := nodeOk_weight_pos hnode b
  exact h.put hw (nodeOk_setWeight hnode b (by unfold Num.increment; linarith))

/-- Steps 4 to 6 of `UPDATE` end in a sound graph: along the edge, or flushed. -/
theorem graphOk_enterNext {n : NodeAddr} {b : Bool} {s : State} (hnb : 1 ≤ s.nb.toNat)
    (h : NodesOk s.cur.toNat s.nf) (hn : InUse s.cur.toNat n.toNat) : GraphOk (enterNext n b s) := by
  rcases Nat.lt_or_ge s.cur.toNat s.nb.toNat with hroom | hfull
  · rw [enterNext_of_room n b hroom]
    exact graphOk_iff.2 ⟨hroom, nodeOk_edge_inUse (h _ hn) b, h⟩
  · rw [enterNext_of_full n b hfull]
    exact graphOk_congr (graphOk_flushGraph hnb) rfl rfl rfl rfl

/-- A legal `UPDATE` keeps the state graph sound (R42 to R45). -/
theorem graphOk_update {s : State} (hw : s.nf.wf = true) (hnb : s.nb.toNat ≤ Config.nbMax) (hg : GraphOk s) :
    GraphOk (commandEffect .update s) := by
  obtain ⟨hcn, hnodes, hbudget⟩ := graph_cloneStep hw hnb hg
  have hpos : 1 ≤ (cloneStep s).nb.toNat := by
    rw [hbudget]
    have := hg.cursor
    omega
  exact graphOk_enterNext hpos (nodesOk_recordBit (wf_cloneStep hw) hnodes hcn) hcn

/-- Settles O43: a fault changes no part of the graph, and a legal `UPDATE` keeps it sound. -/
theorem updateKeepsTheGraphSound : Obligations.UpdateKeepsTheGraphSound := by
  intro s t hw hnb hg h
  cases exec_cases h with
  | ignored => exact hg
  | faulted => exact graphOk_congr hg rfl rfl rfl rfl
  | effect => exact graphOk_update hw hnb hg

end Sys2Proof.Proofs.SoundGraph
end

section
/-! The invariant of the block (spec/10_state.md R40 to R45, R47): reset meets it and every step keeps it. -/

namespace Sys2Proof.Proofs.Soundness

open Sys2Proof.Machine Sys2Proof.Safety Sys2Proof.Laws Sys2Proof.Proofs.Effects Sys2Proof.Proofs.CanonicalFile
open Sys2Proof.Proofs.SoundInterval Sys2Proof.Proofs.SoundGraph

/-- A step that leaves the predictor, and does not make `P` valid, keeps the invariant where it keeps the coder's
part. -/
theorem inv_of_same_predictor {s t : State} (h : Inv s) (hnf : t.nf = s.nf) (hcur : t.cur = s.cur) (hcn : t.cn = s.cn)
    (hnb : t.nb = s.nb) (hgv : t.gv = s.gv) (hp : t.p = s.p) (hpv : t.pv = true → s.pv = true)
    (hsource : t.ipos ≤ t.input.length) (hinterval : IntervalOk t) : Inv t where
  file := by rw [hnf]; exact h.file
  budget := by rw [hnb]; exact h.budget
  source := hsource
  interval := hinterval
  graph := fun hg => graphOk_congr (h.graph (hgv ▸ hg)) hnf hcur hcn hnb
  probability := fun hv => by rw [hgv, hp]; exact h.probability (hpv hv)

/-- Without a valid graph and a valid probability the invariant is about the rest. -/
theorem inv_of_invalid_graph {s : State} (hfile : s.nf.wf = true) (hbudget : 1 ≤ s.nb.toNat ∧ s.nb.toNat ≤ Config.nbMax)
    (hsource : s.ipos ≤ s.input.length) (hinterval : IntervalOk s) (hgv : s.gv = false) (hpv : s.pv = false) :
    Inv s where
  file := hfile
  budget := hbudget
  source := hsource
  interval := hinterval
  graph := by simp [hgv]
  probability := by simp [hpv]

theorem inv_applyReset {s : State} (hfile : s.nf.wf = true) (hsource : s.ipos ≤ s.input.length) :
    Inv (applyReset s) :=
  inv_of_invalid_graph hfile (by simp only [applyReset_nb]; decide) hsource (intervalOk_ready rfl rfl rfl) rfl rfl

/-- Settles O40: reset gives a coder between streams and no valid graph. -/
theorem resetIsSound : Obligations.ResetIsSound := inv_applyReset (s := State.reset) wf_reset (Nat.le_refl 0)

/-! The read position (R33). -/

theorem source_renormDecode {b : Bool} {s : State} (h : s.ipos ≤ s.input.length) :
    (renormDecode b s).ipos ≤ (renormDecode b s).input.length := by
  rcases Nat.lt_or_ge s.width Config.floor with hw | hw
  · cases hv : s.input[s.ipos]? with
    | none => rwa [renormDecode_of_end hw hv]
    | some v =>
      rw [renormDecode_of_byte hw hv]
      obtain ⟨hlt, -⟩ := List.getElem?_eq_some_iff.1 hv
      exact hlt
  · rwa [renormDecode_of_wide hw]

theorem source_seed (s : State) :
    (commandEffect .seed s).ipos ≤ (commandEffect .seed s).input.length := by
  rcases seed_cases s with ⟨b0, b1, b2, rest, hd, he⟩ | he
  · have hlen := congrArg List.length hd
    simp only [List.length_drop, List.length_cons] at hlen
    rw [he]
    simp only
    omega
  · rw [he]

/-! The commands. -/

/-- In a sound state with a valid graph the probability is proper (R42, R47). -/
theorem probability_proper {s : State} (hg : GraphOk s) :
    0 < Num.probability (currentNode s).w0 (currentNode s).w1 ∧
      Num.probability (currentNode s).w0 (currentNode s).w1 < 1 := by
  have hnode : NodeOk s.cur.toNat s.cn.toNat (currentNode s) := hg.nodes _ hg.current
  have h0 := hnode.w0_pos
  have h1 := hnode.w1_pos
  have htotal : 0 < Num.total (currentNode s).w0 (currentNode s).w1 := add_pos h0 h1
  rw [Num.probability, if_neg htotal.ne']
  refine ⟨div_pos h0 htotal, (div_lt_one htotal).2 ?_⟩
  unfold Num.total
  linarith

theorem inv_setnb {n : Nat} {s : State} (h : Inv s) (hlegal : commandFault (.setnb n) s = .clear)
    (hinterval : IntervalOk (commandEffect (.setnb n) s)) : Inv (commandEffect (.setnb n) s) := by
  obtain ⟨hpos, hmax⟩ := commandFault_setnb.1 hlegal
  have hn : (commandEffect (.setnb n) s).nb.toNat = n := by
    simp only [commandEffect, BitVec.toNat_ofNat]
    omega
  exact inv_of_invalid_graph h.file (by rw [hn]; exact ⟨hpos, hmax⟩) h.source hinterval rfl rfl

theorem inv_flush {s : State} (h : Inv s) (hinterval : IntervalOk (commandEffect .flush s)) :
    Inv (commandEffect .flush s) where
  file := wf_commandEffect .flush h.file
  budget := h.budget
  source := h.source
  interval := hinterval
  graph := fun _ => graphOk_congr (graphOk_flushGraph h.budget.1) rfl rfl rfl rfl
  probability := by simp [commandEffect]

theorem inv_predict {s : State} (h : Inv s) (hlegal : commandFault .predict s = .clear)
    (hinterval : IntervalOk (commandEffect .predict s)) : Inv (commandEffect .predict s) where
  file := h.file
  budget := h.budget
  source := h.source
  interval := hinterval
  graph := fun hg => graphOk_congr (h.graph hg) rfl rfl rfl rfl
  probability := fun _ => by
    obtain ⟨hgv, -⟩ := commandFault_predict.1 hlegal
    exact ⟨hgv, probability_proper (h.graph hgv)⟩

theorem inv_update {s : State} (h : Inv s) (hlegal : commandFault .update s = .clear)
    (hinterval : IntervalOk (commandEffect .update s)) : Inv (commandEffect .update s) := by
  have hgraph := graphOk_update h.file h.budget.2 (h.graph (gv_of_commandFault_update hlegal))
  have hfile := wf_commandEffect .update h.file
  obtain ⟨nf, cur, cn, he⟩ := update_writes s
  rw [he] at hgraph hfile hinterval ⊢
  exact ⟨hfile, h.budget, h.source, hinterval, fun _ => hgraph, by simp⟩

/-- Every legal command keeps the invariant. -/
theorem inv_commandEffect {i : Instr} {s : State} (h : Inv s) (hlegal : commandFault i s = .clear) :
    Inv (commandEffect i s) := by
  have hp : s.pv = true → s.p ≤ 1 := fun hpv => by
    obtain ⟨-, -, hlt⟩ := h.probability hpv
    exact hlt.le
  have hinterval : IntervalOk (commandEffect i s) := intervalOk_commandEffect h.interval hp hlegal
  cases i with
  | cinit => exact inv_of_same_predictor h rfl rfl rfl rfl rfl rfl id h.source hinterval
  | setnb n => exact inv_setnb h hlegal hinterval
  | flush => exact inv_flush h hinterval
  | predict => exact inv_predict h hlegal hinterval
  | update => exact inv_update h hlegal hinterval
  | encbit b =>
    obtain ⟨lo, hi, n, out, he, -⟩ := encbit_writes b s
    rw [he] at hinterval ⊢
    exact inv_of_same_predictor h rfl rfl rfl rfl rfl rfl (by simp) h.source hinterval
  | decbit =>
    have hsource : (commandEffect .decbit s).ipos ≤ (commandEffect .decbit s).input.length :=
      source_renormDecode h.source
    obtain ⟨lo, hi, v, n, i, c, he, -⟩ := decbit_writes s
    rw [he] at hinterval hsource ⊢
    exact inv_of_same_predictor h rfl rfl rfl rfl rfl rfl (by simp) hsource hinterval
  | finish => exact inv_of_same_predictor h rfl rfl rfl rfl rfl rfl id h.source hinterval
  | seed =>
    have hsource := source_seed s
    rcases seed_cases s with ⟨b0, b1, b2, rest, -, he⟩ | he <;> rw [he] at hinterval hsource ⊢ <;>
      exact inv_of_same_predictor h rfl rfl rfl rfl rfl rfl id hsource hinterval

/-- Settles O41: host actions and faults leave the predictor and the coder as they are or reset both, and every legal
command keeps the invariant. -/
theorem stepKeepsTheInvariant : Obligations.StepKeepsTheInvariant := by
  intro s t hs h
  refine step_keeps (P := Inv) ?_ ?_ ?_ ?_ (fun i s hi hlegal => inv_commandEffect hi hlegal) hs h
  · exact fun s _ _ hi =>
      inv_of_same_predictor hi rfl rfl rfl rfl rfl rfl id hi.source (intervalOk_congr hi.interval rfl rfl rfl)
  · exact fun s _ hi =>
      inv_of_same_predictor hi rfl rfl rfl rfl rfl rfl id hi.source (intervalOk_congr hi.interval rfl rfl rfl)
  · exact fun s hi => inv_applyReset hi.file hi.source
  · exact fun s _ hi =>
      inv_of_same_predictor hi rfl rfl rfl rfl rfl rfl id (Nat.zero_le _) (intervalOk_congr hi.interval rfl rfl rfl)

end Sys2Proof.Proofs.Soundness
end

section
/-! What the spec leaves unspecified cannot be observed (spec/10_state.md R23, R38): a simulation between two sound
states that differ only in `P` while `PV = 0` and in nodes that are not in use. -/

namespace Sys2Proof.Proofs.Unobservable

open Sys2Proof.Machine Sys2Proof.Safety Sys2Proof.Laws Sys2Proof.Proofs.Effects Sys2Proof.Proofs.CanonicalFile
open Sys2Proof.Proofs.SoundGraph Sys2Proof.Proofs.Soundness

/-- Two node files give the same node at every address in use. -/
def AgreeOn (cur : Nat) (f g : NodeFile) : Prop := ∀ a, InUse cur a → nodeAt g a = nodeAt f a

/-- The state with another node file and another probability. -/
def withHidden (s : State) (f : NodeFile) (q : Weight) : State := { s with nf := f, p := q }

/-- Another node file and another probability that R23 and R38 call unobservable. -/
structure Unseen (s : State) (f : NodeFile) (q : Weight) : Prop where
  probability : s.pv = true → q = s.p
  nodes : s.gv = true → AgreeOn s.cur.toNat s.nf f

theorem sameButUnobservable_withHidden {s : State} {f : NodeFile} {q : Weight} (h : Unseen s f q) :
    sameButUnobservable s (withHidden s f q) := ⟨rfl, h.probability, h.nodes⟩

theorem sameButUnobservable_iff {s t : State} :
    sameButUnobservable s t ↔ ∃ f q, t = withHidden s f q ∧ Unseen s f q := by
  constructor
  · rintro ⟨hrest, hp, hnodes⟩
    exact ⟨t.nf, t.p, hrest, hp, hnodes⟩
  · rintro ⟨f, q, rfl, h⟩
    exact sameButUnobservable_withHidden h

/-! Writes to files that agree. -/

theorem AgreeOn.put {cur a : Nat} {f g : NodeFile} (h : AgreeOn cur f g) (hf : f.wf = true) (hg : g.wf = true)
    (m : Node) : AgreeOn cur (putNode a m f) (putNode a m g) := by
  intro c hc
  by_cases hca : c = a
  · subst hca
    rw [nodeAt_putNode_same c m hf, nodeAt_putNode_same c m hg]
  · rw [nodeAt_putNode_other f m hca, nodeAt_putNode_other g m hca]
    exact h c hc

/-- Writing the slot of the cursor makes the files agree there too. -/
theorem AgreeOn.grow {cur : Nat} {f g : NodeFile} (h : AgreeOn cur f g) (hf : f.wf = true) (hg : g.wf = true)
    (m : Node) :
    AgreeOn (cur + 1) (putNode (Config.poolBase + cur) m f) (putNode (Config.poolBase + cur) m g) := by
  intro c hc
  rcases inUse_succ.1 hc with hold | rfl
  · exact h.put hf hg m c hold
  · rw [nodeAt_putNode_same _ m hf, nodeAt_putNode_same _ m hg]

/-- A flush makes all that is in use after it agree. -/
theorem agreeOn_flush (f g : NodeFile) :
    AgreeOn 0 (f.filter fun e => !isBase e.1) (g.filter fun e => !isBase e.1) := by
  intro a ha
  have hbase : isBase a = true := inUse_zero.1 ha
  rw [nodeAt_filter_base f hbase, nodeAt_filter_base g hbase]

/-! The coder commands do not see the node file, and see `P` only where it is valid. -/

section
variable (s : State) (f : NodeFile) (q : Weight)

theorem renormEncode_withHidden (b : Bool) :
    renormEncode b (withHidden s f q) = withHidden (renormEncode b s) f q := by
  rcases Nat.lt_or_ge s.width Config.floor with hw | hw
  · rw [renormEncode_of_narrow (s := withHidden s f q) hw, renormEncode_of_narrow hw]
    rfl
  · rw [renormEncode_of_wide (s := withHidden s f q) hw, renormEncode_of_wide hw]

theorem renormDecode_withHidden (b : Bool) :
    renormDecode b (withHidden s f q) = withHidden (renormDecode b s) f q := by
  rcases Nat.lt_or_ge s.width Config.floor with hw | hw
  · cases hv : s.input[s.ipos]? with
    | none =>
      rw [renormDecode_of_end (s := withHidden s f q) hw hv, renormDecode_of_end hw hv]
      rfl
    | some v =>
      rw [renormDecode_of_byte (s := withHidden s f q) hw hv, renormDecode_of_byte hw hv]
      rfl
  · rw [renormDecode_of_wide (s := withHidden s f q) hw, renormDecode_of_wide hw]

theorem encbit_withHidden (b : Bool) :
    commandEffect (.encbit b) (withHidden s f s.p) = withHidden (commandEffect (.encbit b) s) f s.p := by
  have h := renormEncode_withHidden (narrow b (splitPoint s) s) f s.p b
  exact congrArg (fun u : State => ({ latchBit b u with cstate := .enc } : State)) h

theorem decbit_withHidden :
    commandEffect .decbit (withHidden s f s.p) = withHidden (commandEffect .decbit s) f s.p :=
  renormDecode_withHidden (latchBit (decodedBit s) (narrow (decodedBit s) (splitPoint s) s)) f s.p (decodedBit s)

theorem seed_withHidden :
    commandEffect .seed (withHidden s f q) = withHidden (commandEffect .seed s) f q := by
  by_cases h : ∃ b0 b1 b2 rest, s.input.drop s.ipos = b0 :: b1 :: b2 :: rest
  · obtain ⟨b0, b1, b2, rest, hd⟩ := h
    rw [seed_of_three (s := withHidden s f q) hd, seed_of_three hd]
    rfl
  · have hshort : ∀ b0 b1 b2 rest, s.input.drop s.ipos ≠ b0 :: b1 :: b2 :: rest :=
      fun b0 b1 b2 rest hd => h ⟨b0, b1, b2, rest, hd⟩
    rw [seed_of_short (s := withHidden s f q) hshort, seed_of_short hshort]
    rfl

end

/-- What is unseen stays so where a command leaves the predictor and does not make `P` valid. -/
theorem Unseen.of_same_predictor {s s' : State} {f : NodeFile} {q : Weight} (h : Unseen s f q) (hnf : s'.nf = s.nf)
    (hcur : s'.cur = s.cur) (hgv : s'.gv = s.gv) (hp : s'.p = s.p) (hpv : s'.pv = true → s.pv = true) :
    Unseen s' f q where
  probability := fun hv => by rw [hp]; exact h.probability (hpv hv)
  nodes := fun hg => by rw [hnf, hcur]; exact h.nodes (hgv ▸ hg)

/-! The values that the predictor commands read are those of nodes in use. -/

section
variable {s : State} {f : NodeFile} (q : Weight) (hg : GraphOk s) (h : AgreeOn s.cur.toNat s.nf f)
include hg h

theorem currentNode_withHidden : currentNode (withHidden s f q) = currentNode s := h _ hg.current

theorem targetAddr_withHidden : targetAddr (withHidden s f q) = targetAddr s := by
  rw [targetAddr, currentNode_withHidden q hg h]
  rfl

theorem targetNode_withHidden : targetNode (withHidden s f q) = targetNode s := by
  rw [targetNode, targetAddr_withHidden q hg h]
  exact h _ (inUse_targetAddr hg.current hg.nodes)

theorem usedWeight_withHidden : usedWeight (withHidden s f q) = usedWeight s := by
  rw [usedWeight, currentNode_withHidden q hg h]
  rfl

theorem targetTotal_withHidden : targetTotal (withHidden s f q) = targetTotal s := by
  rw [targetTotal, targetNode_withHidden q hg h, targetTotal]

theorem wantsClone_withHidden : wantsClone (withHidden s f q) = wantsClone s := by
  rw [wantsClone, usedWeight_withHidden q hg h, targetTotal_withHidden q hg h, wantsClone]

theorem slotNode_withHidden : slotNode (withHidden s f q) = slotNode s := by
  simp only [slotNode, movedShare, targetNode_withHidden q hg h, usedWeight_withHidden q hg h,
    targetTotal_withHidden q hg h]

end

/-- A command raises the same fault. -/
theorem commandFault_withHidden (i : Instr) {s : State} {f : NodeFile} {q : Weight} (hs : Inv s) (h : Unseen s f q) :
    commandFault i (withHidden s f q) = commandFault i s := by
  cases i with
  | update =>
    cases hgv : s.gv with
    | false =>
      have hgv' : (withHidden s f q).gv = false := hgv
      simp only [commandFault, updateFault, hgv, hgv', Bool.not_false, if_true]
    | true =>
      have hg := hs.graph hgv
      have hn := h.nodes hgv
      simp only [commandFault, updateFault, targetAddr_withHidden q hg hn, wantsClone_withHidden q hg hn]
      rfl
  | cinit => rfl
  | setnb n => rfl
  | flush => rfl
  | predict => rfl
  | encbit b => rfl
  | decbit => rfl
  | finish => rfl
  | seed => rfl

/-! The stages of `UPDATE` (spec/40_predictor.md R112). -/

/-- Two states that differ in `P` and in nodes not in use. -/
def Alike (s t : State) : Prop := ∃ f q, t = withHidden s f q ∧ AgreeOn s.cur.toNat s.nf f

section
variable {s : State} {f : NodeFile} (q : Weight) (hw : s.nf.wf = true) (hf : f.wf = true)
  (hnb : s.nb.toNat ≤ Config.nbMax) (hg : GraphOk s) (h : AgreeOn s.cur.toNat s.nf f)
include hw hf hnb hg h

theorem agreeOn_slotFile : AgreeOn (s.cur.toNat + 1) (slotFile s) (slotFile (withHidden s f q)) := by
  have hslot : (slot s).toNat = Config.poolBase + s.cur.toNat := toNat_slot hg.cursor hnb
  have hslot' : (slot (withHidden s f q)).toNat = Config.poolBase + s.cur.toNat := hslot
  rw [slotFile, slotFile, slotNode_withHidden q hg h, hslot, hslot']
  exact h.grow hw hf (slotNode s)

theorem agreeOn_keptFile : AgreeOn (s.cur.toNat + 1) (keptFile s) (keptFile (withHidden s f q)) := by
  have hfile := agreeOn_slotFile q hw hf hnb hg h
  have hkept : keptNode (withHidden s f q) = keptNode s := by
    have htarget := InUse_mono (Nat.le_succ _) (inUse_targetAddr hg.current hg.nodes)
    simp only [keptNode, movedShare, targetNode_withHidden q hg h, usedWeight_withHidden q hg h,
      targetTotal_withHidden q hg h, targetAddr_withHidden q hg h, hfile _ htarget]
  rw [keptFile, keptFile, hkept, targetAddr_withHidden q hg h]
  exact hfile.put (wf_slotFile hw) (wf_slotFile (s := withHidden s f q) hf) (keptNode s)

theorem alike_cloneTarget : Alike (cloneTarget s) (cloneTarget (withHidden s f q)) := by
  have hfile := agreeOn_keptFile q hw hf hnb hg h
  have hcursor : (cloneTarget s).cur.toNat = s.cur.toNat + 1 := toNat_cur_succ hg.cursor
  have hnode : redirectedNode (withHidden s f q) = redirectedNode s :=
    congrArg (Node.setEdge · s.bit (slot s)) (hfile _ (InUse_mono (Nat.le_succ _) hg.current))
  have hagree : AgreeOn (s.cur.toNat + 1) (cloneTarget s).nf (cloneTarget (withHidden s f q)).nf := by
    rw [cloneTarget_nf, cloneTarget_nf, hnode]
    exact hfile.put (wf_keptFile hw) (wf_keptFile (s := withHidden s f q) hf) (redirectedNode s)
  exact ⟨(cloneTarget (withHidden s f q)).nf, q, rfl, hcursor ▸ hagree⟩

theorem alike_cloneStep : Alike (cloneStep s) (cloneStep (withHidden s f q)) := by
  have hclone := wantsClone_withHidden q hg h
  have hroom := poolOverflows_eq_false hg.cursor
  cases hwants : wantsClone s with
  | false =>
    rw [cloneStep_of_no_clone hwants, cloneStep_of_no_clone (hclone.trans hwants)]
    exact ⟨f, q, rfl, h⟩
  | true =>
    rw [cloneStep_of_clone hwants hroom, cloneStep_of_clone (hclone.trans hwants) hroom]
    exact alike_cloneTarget q hw hf hnb hg h

end

theorem alike_recordBit {s t : State} (n : NodeAddr) (b : Bool) (hw : s.nf.wf = true) (hwt : t.nf.wf = true)
    (hn : InUse s.cur.toNat n.toNat) (h : Alike s t) : Alike (recordBit n b s) (recordBit n b t) := by
  obtain ⟨f, q, rfl, hnodes⟩ := h
  have hnode : (withHidden s f q).node n = s.node n := hnodes _ hn
  refine ⟨_, q, rfl, ?_⟩
  rw [recordBit, hnode]
  exact hnodes.put hw hwt _

theorem alike_enterNext {s t : State} (n : NodeAddr) (b : Bool) (hn : InUse s.cur.toNat n.toNat) (h : Alike s t) :
    Alike (enterNext n b s) (enterNext n b t) := by
  obtain ⟨f, q, rfl, hnodes⟩ := h
  have hnode : (withHidden s f q).node n = s.node n := hnodes _ hn
  rcases Nat.lt_or_ge s.cur.toNat s.nb.toNat with hroom | hfull
  · rw [enterNext_of_room n b hroom, enterNext_of_room (s := withHidden s f q) n b hroom, hnode]
    exact ⟨f, q, rfl, hnodes⟩
  · rw [enterNext_of_full n b hfull, enterNext_of_full (s := withHidden s f q) n b hfull]
    exact ⟨_, q, rfl, agreeOn_flush s.nf f⟩

theorem alike_update {s : State} {f : NodeFile} (q : Weight) (hs : Inv s) (hf : f.wf = true) (hgv : s.gv = true)
    (h : AgreeOn s.cur.toNat s.nf f) : Alike (commandEffect .update s) (commandEffect .update (withHidden s f q)) := by
  obtain ⟨hcn, -, -⟩ := graph_cloneStep hs.file hs.budget.2 (hs.graph hgv)
  have hclone := alike_cloneStep q hs.file hf hs.budget.2 (hs.graph hgv) h
  have hrecord := alike_recordBit s.cn s.bit (wf_cloneStep hs.file) (wf_cloneStep (s := withHidden s f q) hf) hcn hclone
  exact alike_enterNext s.cn s.bit hcn hrecord

/-! The simulation. -/

/-- Every legal command keeps what is unseen unseen. -/
theorem same_commandEffect {i : Instr} {s : State} {f : NodeFile} {q : Weight} (hs : Inv s) (hf : f.wf = true)
    (h : Unseen s f q) (hlegal : commandFault i s = .clear) :
    sameButUnobservable (commandEffect i s) (commandEffect i (withHidden s f q)) := by
  cases i with
  | cinit => exact sameButUnobservable_withHidden (h.of_same_predictor rfl rfl rfl rfl id)
  | setnb n => exact ⟨rfl, by simp [commandEffect], by simp [commandEffect]⟩
  | flush => exact ⟨rfl, by simp [commandEffect], fun _ => agreeOn_flush s.nf f⟩
  | predict =>
    obtain ⟨hgv, -⟩ := commandFault_predict.1 hlegal
    have hnode := currentNode_withHidden q (hs.graph hgv) (h.nodes hgv)
    refine ⟨rfl, fun _ => ?_, fun _ => h.nodes hgv⟩
    simp only [commandEffect, hnode]
  | update =>
    have hgv := gv_of_commandFault_update hlegal
    obtain ⟨f', q', he, hnodes⟩ := alike_update q hs hf hgv (h.nodes hgv)
    obtain ⟨nf, cur, cn, hwrites⟩ := update_writes s
    rw [he]
    exact sameButUnobservable_withHidden ⟨by simp [hwrites], fun _ => hnodes⟩
  | encbit b =>
    obtain ⟨-, hpv⟩ := commandFault_encbit.1 hlegal
    obtain rfl := h.probability hpv
    obtain ⟨lo, hi, n, out, he, -⟩ := encbit_writes b s
    rw [encbit_withHidden, he]
    exact sameButUnobservable_withHidden (h.of_same_predictor rfl rfl rfl rfl (by simp))
  | decbit =>
    obtain ⟨-, hpv⟩ := commandFault_decbit.1 hlegal
    obtain rfl := h.probability hpv
    obtain ⟨lo, hi, v, n, i, c, he, -⟩ := decbit_writes s
    rw [decbit_withHidden, he]
    exact sameButUnobservable_withHidden (h.of_same_predictor rfl rfl rfl rfl (by simp))
  | finish => exact sameButUnobservable_withHidden (h.of_same_predictor rfl rfl rfl rfl id)
  | seed =>
    rw [seed_withHidden]
    refine sameButUnobservable_withHidden ?_
    rcases seed_cases s with ⟨b0, b1, b2, rest, -, he⟩ | he <;> rw [he] <;>
      exact h.of_same_predictor rfl rfl rfl rfl id

theorem Unseen.raiseFault {s : State} {f : NodeFile} {q : Weight} (h : Unseen s f q) (c : FaultCode) :
    Unseen (raiseFault c s) f q := h.of_same_predictor rfl rfl rfl rfl id

/-- A command on two states that differ in what is unseen. -/
theorem exec_simulates {i : Instr} {s s' : State} {f : NodeFile} {q : Weight} (hs : Inv s) (hf : f.wf = true)
    (h : Unseen s f q) (hstep : exec i s = .next s') :
    ∃ t', exec i (withHidden s f q) = .next t' ∧ sameButUnobservable s' t' := by
  have hfault := commandFault_withHidden i hs h
  by_cases hclear : s.fcode = .clear
  · rw [exec_of_clear i hclear] at hstep
    obtain rfl := Host.Outcome.next.inj hstep
    refine ⟨_, exec_of_clear (s := withHidden s f q) i hclear, ?_⟩
    rw [hfault]
    split_ifs with hlegal
    · exact same_commandEffect hs hf h hlegal
    · exact sameButUnobservable_withHidden (h.raiseFault _)
  · rw [exec_faulted i s hclear] at hstep
    obtain rfl := Host.Outcome.next.inj hstep
    exact ⟨_, exec_faulted i (withHidden s f q) hclear, sameButUnobservable_withHidden h⟩

theorem execWord_simulates {w : CommandWord} {s s' : State} {f : NodeFile} {q : Weight} (hs : Inv s)
    (hf : f.wf = true) (h : Unseen s f q) (hstep : execWord w s = .next s') :
    ∃ t', execWord w (withHidden s f q) = .next t' ∧ sameButUnobservable s' t' := by
  cases hd : decode w with
  | ok i =>
    rw [Scope.execWord_of_decode_ok hd] at hstep ⊢
    exact exec_simulates hs hf h hstep
  | error e =>
    simp only [execWord, hd, execIllegal] at hstep ⊢
    obtain rfl := Host.Outcome.next.inj hstep
    refine ⟨_, rfl, ?_⟩
    by_cases hclear : s.fcode = .clear
    · rw [unlessFaulted_clear _ hclear, unlessFaulted_clear (s := withHidden s f q) _ hclear]
      exact sameButUnobservable_withHidden (h.raiseFault _)
    · rw [unlessFaulted_faulted _ hclear, unlessFaulted_faulted (s := withHidden s f q) _ hclear]
      exact sameButUnobservable_withHidden h

/-- A host action on two states that differ in what is unseen. -/
theorem takeAction_simulates {a : HostAction} {s s' : State} {f : NodeFile} {q : Weight} (hs : Inv s)
    (hf : f.wf = true) (h : Unseen s f q) (hstep : takeAction a s = .next s') :
    ∃ t', takeAction a (withHidden s f q) = .next t' ∧ sameButUnobservable s' t' := by
  cases a with
  | command w => exact execWord_simulates hs hf h hstep
  | readReg k =>
    have hread : readReg k (withHidden s f q) = readReg k s := rfl
    simp only [takeAction, hostRead, hread] at hstep ⊢
    split at hstep
    · obtain rfl := Host.Outcome.next.inj hstep
      exact ⟨_, rfl, sameButUnobservable_withHidden (h.of_same_predictor rfl rfl rfl rfl id)⟩
    · cases hstep
  | reset =>
    obtain rfl := Host.Outcome.next.inj hstep
    exact ⟨_, rfl, rfl, by simp, by simp⟩
  | supply bytes =>
    obtain rfl := Host.Outcome.next.inj hstep
    exact ⟨_, rfl, sameButUnobservable_withHidden (h.of_same_predictor rfl rfl rfl rfl id)⟩

/-- Settles O47: a simulation, action by action and command by command. -/
theorem unspecifiedContentsAreUnobservable : Obligations.UnspecifiedContentsAreUnobservable := by
  intro s t s' hs ht hsame hstep
  obtain ⟨f, q, rfl, h⟩ := sameButUnobservable_iff.1 hsame
  have hf : f.wf = true := ht.file
  cases hp : s.pending with
  | nil =>
    have hidle : step (withHidden s f q) = .next (withHidden s f q) := by
      have hp' : (withHidden s f q).pending = [] := hp
      simp only [step, takeNext, hp']
    simp only [step, takeNext, hp] at hstep
    obtain rfl := Host.Outcome.next.inj hstep
    exact ⟨_, hidle, hsame⟩
  | cons a rest =>
    rw [Scope.step_of_pending_cons hp] at hstep
    rw [Scope.step_of_pending_cons (s := withHidden s f q) hp]
    have hu : Inv { s with pending := rest } :=
      inv_of_same_predictor hs rfl rfl rfl rfl rfl rfl id hs.source
        (SoundInterval.intervalOk_congr hs.interval rfl rfl rfl)
    exact takeAction_simulates hu hf (h.of_same_predictor rfl rfl rfl rfl id) hstep

end Sys2Proof.Proofs.Unobservable
end

section
/-! The base topology (spec/20_memory.md R61, R62): its edges in closed form, and where the walk of a byte's bits stands
after each of them. -/

namespace Sys2Proof.Proofs.BaseTopology

open Sys2Proof.Machine

/-- Before the last level an edge leads to the child in the same context. -/
theorem baseEdge_inner (c : Nat) {h : Nat} (b : Bool) (hh : h ≤ 127) :
    baseEdge (c * 256 + h) b = c * 256 + (2 * h + b.toNat) := by
  have hdiv : (c * 256 + h) / 256 = c := by omega
  have hmod : (c * 256 + h) % 256 = h := by omega
  simp only [baseEdge, hdiv, hmod, if_pos hh]

/-- At the last level an edge leads to the root of the context whose index is the byte just completed. -/
theorem baseEdge_last (c : Nat) {h : Nat} (b : Bool) (hlo : 128 ≤ h) (hhi : h ≤ 255) :
    baseEdge (c * 256 + h) b = root (2 * (h - 128) + b.toNat) := by
  have hmod : (c * 256 + h) % 256 = h := by omega
  have hnot : ¬ h ≤ 127 := by omega
  have hb := b.toNat_le
  have hbyte : (2 * h + b.toNat) % 256 = 2 * (h - 128) + b.toNat := by omega
  simp only [baseEdge, hmod, if_neg hnot, hbyte]

theorem walk_append_singleton (b : Bool) :
    ∀ (a : Nat) (bits : List Bool), Literal.walk a (bits ++ [b]) = baseEdge (Literal.walk a bits) b
  | _, [] => rfl
  | a, x :: rest => walk_append_singleton b (baseEdge a x) rest

theorem bitsMsbFirst_eq_map_range (v : Byte) :
    bitsMsbFirst v = (List.range 8).map fun k => v.getLsbD (7 - k) := rfl

theorem take_succ_bitsMsbFirst (v : Byte) {k : Nat} (hk : k < 8) :
    (bitsMsbFirst v).take (k + 1) = (bitsMsbFirst v).take k ++ [v.getLsbD (7 - k)] := by
  have hlen : k < (bitsMsbFirst v).length := hk
  rw [List.take_succ_eq_append_getElem hlen]
  simp [bitsMsbFirst_eq_map_range]

/-- The leading bits of a byte, with the next bit appended. -/
theorem leadingBits_append_bit (v : Byte) (n : Nat) :
    2 * (v.toNat / 2 ^ (n + 1)) + (v.getLsbD n).toNat = v.toNat / 2 ^ n := by
  have hbit : (v.getLsbD n).toNat = v.toNat / 2 ^ n % 2 := Nat.toNat_testBit _ _
  rw [hbit, pow_succ, ← Nat.div_div_eq_div_mul]
  exact Nat.div_add_mod _ 2

/-- The `k` leading bits of a byte are a `k`-bit number. -/
theorem leadingBits_lt (v : Byte) {k : Nat} (hk : k ≤ 8) : v.toNat / 2 ^ (8 - k) < 2 ^ k := by
  rw [Nat.div_lt_iff_lt_mul (by positivity), ← pow_add, Nat.add_sub_cancel' hk]
  exact v.isLt

/-- After `k` bits the walk stands at heap index `2^k + q`, where `q` is the number its `k` leading bits write. -/
theorem walk_take_bitsMsbFirst (c : Nat) (v : Byte) {k : Nat} (hk : k ≤ 7) :
    Literal.walk (root c) ((bitsMsbFirst v).take k) = c * 256 + (2 ^ k + v.toNat / 2 ^ (8 - k)) := by
  induction k with
  | zero => simpa [Literal.walk, root] using v.isLt
  | succ k ih =>
    have hleading := leadingBits_lt v (k := k) (by omega)
    have hlevel : 2 ^ k ≤ 2 ^ 6 := Nat.pow_le_pow_right (by decide) (by omega)
    have hinner : 2 ^ k + v.toNat / 2 ^ (8 - k) ≤ 127 := by omega
    have hnext := leadingBits_append_bit v (7 - k)
    rw [show 7 - k + 1 = 8 - k by omega] at hnext
    rw [take_succ_bitsMsbFirst v (by omega), walk_append_singleton, ih (by omega), baseEdge_inner c _ hinner,
      show 8 - (k + 1) = 7 - k by omega, ← hnext, pow_succ]
    omega

/-- The eighth bit takes the walk from the last level to the root of the context of the byte. -/
theorem walk_bitsMsbFirst (c : Nat) (v : Byte) : Literal.walk (root c) (bitsMsbFirst v) = root v.toNat := by
  have hleading : v.toNat / 2 ^ 1 < 2 ^ 7 := leadingBits_lt v (k := 7) (by decide)
  have hdrop : 2 ^ 7 + v.toNat / 2 ^ 1 - 128 = v.toNat / 2 ^ 1 := Nat.add_sub_cancel_left 128 _
  have hbyte : 2 * (v.toNat / 2 ^ 1) + (v.getLsbD 0).toNat = v.toNat / 2 ^ 0 := leadingBits_append_bit v 0
  calc Literal.walk (root c) (bitsMsbFirst v)
      = Literal.walk (root c) ((bitsMsbFirst v).take 7 ++ [v.getLsbD 0]) :=
        congrArg _ (take_succ_bitsMsbFirst v (k := 7) (by decide))
    _ = baseEdge (c * 256 + (2 ^ 7 + v.toNat / 2 ^ 1)) (v.getLsbD 0) := by
        rw [walk_append_singleton, walk_take_bitsMsbFirst c v (Nat.le_refl 7)]
    _ = root (2 * (v.toNat / 2 ^ 1) + (v.getLsbD 0).toNat) := by
        rw [baseEdge_last c _ (by omega) (by omega), hdrop]
    _ = root v.toNat := by rw [hbyte, pow_zero, Nat.div_one]

/-- Settles O15, by induction on the number of bits walked. -/
theorem baseTopologyReachesByteContext : Obligations.BaseTopologyReachesByteContext :=
  ⟨fun _ => rfl, fun c _ b _ _ => baseEdge_inner c b, fun c _ b _ => baseEdge_last c b,
    fun c _ v _ => walk_take_bitsMsbFirst c v, fun c v _ => walk_bitsMsbFirst c v⟩

end Sys2Proof.Proofs.BaseTopology
end

section
/-! The encoding (spec/30_encoding.md): a command word is its opcode and its operand, and a word decodes to an
instruction exactly when it is the encoding of it. -/

namespace Sys2Proof.Proofs.Encoding

open Sys2Proof.Machine Sys2Proof.Laws

/-! The fields of a word, as numbers (R90, R92). -/

theorem opcOf_eq_iff {w : CommandWord} {o : BitVec 8} : opcOf w = o ↔ w.toNat / 2 ^ 24 = o.toNat := by
  rw [← BitVec.toNat_inj, opcOf, BitVec.extractLsb'_toNat, Nat.shiftRight_eq_div_pow]
  omega

theorem argOf_eq_zero_iff {w : CommandWord} : argOf w = 0 ↔ w.toNat % 2 ^ 24 = 0 := by
  rw [← BitVec.toNat_inj, argOf, BitVec.extractLsb'_toNat]
  rfl

theorem toNat_getLsbD_zero (w : CommandWord) : (w.getLsbD 0).toNat = w.toNat % 2 := by
  rw [BitVec.getLsbD, Nat.toNat_testBit, pow_zero, Nat.div_one]

/-! The formats (R91). -/

/-- A format's check lets an instruction pass exactly when the must-be-zero bits are 0. -/
theorem checked_eq_ok_iff {c : Prop} [Decidable c] {e : IllegalWord} {i j : Instr} :
    (if c then Except.ok i else Except.error e) = Except.ok j ↔ c ∧ i = j := by
  split_ifs with h <;> simp [h]

theorem formatZ_eq_ok_iff {w : CommandWord} {i j : Instr} :
    formatZ w i = .ok j ↔ w.toNat % 2 ^ 24 = 0 ∧ i = j := by
  rw [formatZ, checked_eq_ok_iff, argOf_eq_zero_iff]

theorem formatB_eq_ok_iff {w : CommandWord} {i : Bool → Instr} {j : Instr} :
    formatB w i = .ok j ↔ w.toNat % 2 ^ 24 < 2 ∧ i (w.getLsbD 0) = j := by
  have hreserved : w.extractLsb' 1 23 = 0 ↔ w.toNat % 2 ^ 24 < 2 := by
    rw [← BitVec.toNat_inj, BitVec.extractLsb'_toNat, Nat.shiftRight_eq_div_pow]
    change w.toNat / 2 ^ 1 % 2 ^ 23 = 0 ↔ _
    omega
  rw [formatB, checked_eq_ok_iff, hreserved]

theorem formatN_eq_ok_iff {w : CommandWord} {i : Nat → Instr} {j : Instr} :
    formatN w i = .ok j ↔ w.toNat % 2 ^ 24 < 2 ^ 20 ∧ i (w.toNat % 2 ^ 20) = j := by
  have hreserved : w.extractLsb' 20 4 = 0 ↔ w.toNat % 2 ^ 24 < 2 ^ 20 := by
    rw [← BitVec.toNat_inj, BitVec.extractLsb'_toNat, Nat.shiftRight_eq_div_pow]
    change w.toNat / 2 ^ 20 % 2 ^ 4 = 0 ↔ _
    omega
  have hoperand : (w.extractLsb' 0 20).toNat = w.toNat % 2 ^ 20 := BitVec.extractLsb'_toNat ..
  rw [formatN, checked_eq_ok_iff, hreserved, hoperand]

/-! The encoding of an instruction, by its fields (R93). -/

/-- The opcode in the instruction's row of the opcode map (R93); `toNat_encode` ties it to the encoder. -/
def opcode : Instr → BitVec 8
  | .cinit => 0x01
  | .setnb _ => 0x02
  | .flush => 0x10
  | .predict => 0x11
  | .update => 0x12
  | .encbit _ => 0x20
  | .decbit => 0x21
  | .finish => 0x22
  | .seed => 0x23

/-- What the instruction's word has in `ARG` (R92); `toNat_encode` ties it to the encoder. -/
def operand : Instr → Nat
  | .setnb n => n
  | .encbit b => b.toNat
  | _ => 0

theorem operand_lt {i : Instr} (hi : i.wellFormed = true) : operand i < 2 ^ 24 := by
  cases i with
  | setnb n => exact lt_trans (of_decide_eq_true hi) (by decide)
  | encbit b => cases b <;> decide
  | _ => decide

theorem toNat_encode {i : Instr} (hi : i.wellFormed = true) :
    (encode i).toNat = (opcode i).toNat * 2 ^ 24 + operand i := by
  cases i with
  | setnb n =>
    have hn : n < 2 ^ 20 := of_decide_eq_true hi
    change (0x02000000 + n % 2 ^ 20) % 2 ^ 32 = 2 * 2 ^ 24 + n
    omega
  | encbit b => cases b <;> rfl
  | _ => rfl

/-- The encoding of an instruction is the word with its opcode and its operand. -/
theorem encode_eq_iff {w : CommandWord} {i : Instr} (hi : i.wellFormed = true) :
    encode i = w ↔ w.toNat / 2 ^ 24 = (opcode i).toNat ∧ w.toNat % 2 ^ 24 = operand i := by
  have hlt := operand_lt hi
  rw [← BitVec.toNat_inj, toNat_encode hi]
  omega

/-! The round trip, in both directions. -/

theorem decode_encode {i : Instr} (hi : i.wellFormed = true) : decode (encode i) = .ok i := by
  cases i with
  | setnb n =>
    have hn : n < 2 ^ 20 := of_decide_eq_true hi
    obtain ⟨hopc, harg⟩ := (encode_eq_iff hi).1 rfl
    have hrow : decode (encode (.setnb n)) = formatN (encode (.setnb n)) .setnb := by
      simp [decode, opcOf_eq_iff.2 hopc, opcode]
    have hfield : (encode (.setnb n)).toNat % 2 ^ 20 = n := by
      simp only [operand] at harg
      omega
    exact hrow.trans (formatN_eq_ok_iff.2 ⟨harg.trans_lt hn, congrArg _ hfield⟩)
  | encbit b => cases b <;> rfl
  | _ => rfl

/-- Settles O1: the encoder writes the opcode and the operand, and the decoder's fields are these two. -/
theorem decodeOfEncodeIsTheInstruction : Obligations.DecodeOfEncodeIsTheInstruction :=
  fun _ => decode_encode

theorem encode_of_formatZ {w : CommandWord} {i j : Instr} (h : formatZ w i = .ok j) (hopc : opcOf w = opcode i)
    (hi : i.wellFormed = true) (hoperand : operand i = 0) : j.wellFormed = true ∧ encode j = w := by
  obtain ⟨harg, rfl⟩ := formatZ_eq_ok_iff.1 h
  exact ⟨hi, (encode_eq_iff hi).2 ⟨opcOf_eq_iff.1 hopc, harg.trans hoperand.symm⟩⟩

theorem encode_of_formatB {w : CommandWord} {j : Instr} (h : formatB w .encbit = .ok j) (hopc : opcOf w = 0x20) :
    j.wellFormed = true ∧ encode j = w := by
  obtain ⟨harg, rfl⟩ := formatB_eq_ok_iff.1 h
  have hoperand : w.toNat % 2 ^ 24 = (w.getLsbD 0).toNat := by
    rw [toNat_getLsbD_zero]
    omega
  exact ⟨rfl, (encode_eq_iff rfl).2 ⟨opcOf_eq_iff.1 hopc, hoperand⟩⟩

theorem encode_of_formatN {w : CommandWord} {j : Instr} (h : formatN w .setnb = .ok j) (hopc : opcOf w = 0x02) :
    j.wellFormed = true ∧ encode j = w := by
  obtain ⟨harg, rfl⟩ := formatN_eq_ok_iff.1 h
  have hwf : (Instr.setnb (w.toNat % 2 ^ 20)).wellFormed = true := decide_eq_true (Nat.mod_lt _ (by decide))
  have hoperand : w.toNat % 2 ^ 24 = w.toNat % 2 ^ 20 := by omega
  exact ⟨hwf, (encode_eq_iff hwf).2 ⟨opcOf_eq_iff.1 hopc, hoperand⟩⟩

theorem encode_of_decode {w : CommandWord} {i : Instr} (h : decode w = .ok i) :
    i.wellFormed = true ∧ encode i = w := by
  unfold decode at h
  split_ifs at h with h01 h02 h10 h11 h12 h20 h21 h22 h23
  · exact encode_of_formatZ h h01 rfl rfl
  · exact encode_of_formatN h h02
  · exact encode_of_formatZ h h10 rfl rfl
  · exact encode_of_formatZ h h11 rfl rfl
  · exact encode_of_formatZ h h12 rfl rfl
  · exact encode_of_formatB h h20
  · exact encode_of_formatZ h h21 rfl rfl
  · exact encode_of_formatZ h h22 rfl rfl
  · exact encode_of_formatZ h h23 rfl rfl

/-- Settles O2: `OPC` fixes the row, and the row's format fixes `ARG`. -/
theorem decodedWordIsTheEncoding : Obligations.DecodedWordIsTheEncoding :=
  fun _ _ => encode_of_decode

/-- The decoder and the encoder are inverse to each other on the well-formed instructions. -/
theorem decode_eq_ok_iff {w : CommandWord} {i : Instr} :
    decode w = .ok i ↔ i.wellFormed = true ∧ encode i = w :=
  ⟨encode_of_decode, fun ⟨hi, hw⟩ => hw ▸ decode_encode hi⟩

/-- Settles O4: each word is the encoding of its instruction. -/
theorem wordsOfTheOpcodeMapDecode : Obligations.WordsOfTheOpcodeMapDecode := by
  refine ⟨?_, ?_, ?_, ?_, ?_, ?_, ?_, ?_, ?_⟩ <;> exact decode_eq_ok_iff.2 ⟨rfl, rfl⟩

/-! Match and mask (R93). -/

/-- Two words are equal when they agree under a mask that leaves out the `k` low bits, and on these bits. -/
theorem eq_iff_and_mask_and_mod (v w : CommandWord) (k : Nat) :
    v = w ↔ w &&& BitVec.allOnes 32 <<< k = v &&& BitVec.allOnes 32 <<< k ∧ w.toNat % 2 ^ k = v.toNat % 2 ^ k := by
  refine ⟨fun h => h ▸ ⟨rfl, rfl⟩, fun ⟨hhigh, hlow⟩ => BitVec.eq_of_getLsbD_eq fun j hj => ?_⟩
  by_cases hjk : j < k
  · have hbit := congrArg (Nat.testBit · j) hlow
    simpa only [Nat.testBit_mod_two_pow, hjk, decide_true, Bool.true_and, BitVec.testBit_toNat] using hbit.symm
  · have hbit := congrArg (BitVec.getLsbD · j) hhigh
    have hmask : (BitVec.allOnes 32 <<< k).getLsbD j = true := by
      rw [BitVec.getLsbD_shiftLeft, BitVec.getLsbD_allOnes]
      simp only [hj, hjk, Nat.sub_lt_of_lt hj, decide_true, decide_false, Bool.not_false, Bool.and_self]
    simpa only [BitVec.getLsbD_and, hmask, Bool.and_true] using hbit.symm

theorem encode_and_mask (i : Instr) : RowMatch.Statement i :=
  match i with
  | .cinit => RowMatch.cinit
  | .setnb n => RowMatch.setnb n
  | .flush => RowMatch.flush
  | .predict => RowMatch.predict
  | .update => RowMatch.update
  | .encbit b => RowMatch.encbit b
  | .decbit => RowMatch.decbit
  | .finish => RowMatch.finish
  | .seed => RowMatch.seed

/-- A word decodes to an instruction whose row leaves `k` bits free exactly when it matches the row and has the
instruction's operand in these bits. -/
theorem decode_eq_ok_iff_row {w : CommandWord} {i : Instr} (k : Nat) (hi : i.wellFormed = true)
    (hmask : RowMatch.mask i = BitVec.allOnes 32 <<< k) :
    decode w = .ok i ↔ w &&& RowMatch.mask i = RowMatch.pattern i ∧ w.toNat % 2 ^ k = (encode i).toNat % 2 ^ k := by
  rw [decode_eq_ok_iff, ← encode_and_mask i hi, hmask, ← eq_iff_and_mask_and_mod]
  exact and_iff_right hi

/-- A row whose mask has every bit leaves no operand. -/
theorem decode_eq_ok_iff_of_full_mask {w : CommandWord} {i : Instr} (hi : i.wellFormed = true)
    (hmask : RowMatch.mask i = BitVec.allOnes 32 <<< 0) :
    decode w = .ok i ↔ w &&& RowMatch.mask i = RowMatch.pattern i := by
  simp [decode_eq_ok_iff_row 0 hi hmask, Nat.mod_one]

theorem decode_eq_setnb_iff (w : CommandWord) (n : Nat) :
    decode w = .ok (.setnb n) ↔ w &&& 0xFFF00000#32 = 0x02000000#32 ∧ n = w.toNat % 2 ^ 20 := by
  by_cases hn : n < 2 ^ 20
  · have hwf : (Instr.setnb n).wellFormed = true := decide_eq_true hn
    have hfield : (encode (.setnb n)).toNat % 2 ^ 20 = n := by
      rw [toNat_encode hwf]
      simp only [operand]
      omega
    rw [decode_eq_ok_iff_row 20 hwf rfl, hfield, eq_comm (a := n)]
    rfl
  · have hdecode : ¬ decode w = .ok (.setnb n) := fun h => hn (of_decide_eq_true (encode_of_decode h).1)
    have hfield : n ≠ w.toNat % 2 ^ 20 := fun h => hn (h ▸ Nat.mod_lt _ (by decide))
    exact iff_of_false hdecode fun h => hfield h.2

theorem decode_eq_encbit_iff (w : CommandWord) (b : Bool) :
    decode w = .ok (.encbit b) ↔ w &&& 0xFFFFFFFE#32 = 0x20000000#32 ∧ b.toNat = w.toNat % 2 := by
  have hfield : (encode (.encbit b)).toNat % 2 ^ 1 = b.toNat := by cases b <;> rfl
  rw [decode_eq_ok_iff_row 1 rfl rfl, hfield, eq_comm (a := b.toNat)]
  rfl

/-- Settles O3: the encoding of an instruction matches its row, and a matching word differs from it in the free bits
only. -/
theorem decodeFollowsMatchAndMask : Obligations.DecodeFollowsMatchAndMask := fun w =>
  ⟨decode_eq_ok_iff_of_full_mask (i := .cinit) rfl rfl, decode_eq_setnb_iff w,
    decode_eq_ok_iff_of_full_mask (i := .flush) rfl rfl, decode_eq_ok_iff_of_full_mask (i := .predict) rfl rfl,
    decode_eq_ok_iff_of_full_mask (i := .update) rfl rfl, decode_eq_encbit_iff w,
    decode_eq_ok_iff_of_full_mask (i := .decbit) rfl rfl, decode_eq_ok_iff_of_full_mask (i := .finish) rfl rfl,
    decode_eq_ok_iff_of_full_mask (i := .seed) rfl rfl⟩

/-! Legal words (R94). -/

theorem exists_encode_eq {w : CommandWord} (i : Instr) (hi : i.wellFormed = true)
    (hopc : w.toNat / 2 ^ 24 = (opcode i).toNat) (harg : w.toNat % 2 ^ 24 = operand i) :
    ∃ i : Instr, i.wellFormed = true ∧ encode i = w :=
  ⟨i, hi, (encode_eq_iff hi).2 ⟨hopc, harg⟩⟩

/-- The legal words are the encodings of the well-formed instructions. -/
theorem legalWord_iff_encode {w : CommandWord} : legalWord w ↔ ∃ i : Instr, i.wellFormed = true ∧ encode i = w := by
  constructor
  · rintro (⟨hopc, harg⟩ | ⟨hopc, harg⟩ | ⟨hopc, harg⟩)
    · rcases hopc with h | h | h | h | h | h | h
      · exact exists_encode_eq .cinit rfl h harg
      · exact exists_encode_eq .flush rfl h harg
      · exact exists_encode_eq .predict rfl h harg
      · exact exists_encode_eq .update rfl h harg
      · exact exists_encode_eq .decbit rfl h harg
      · exact exists_encode_eq .finish rfl h harg
      · exact exists_encode_eq .seed rfl h harg
    · have hbit : w.toNat % 2 ^ 24 = (w.getLsbD 0).toNat := by
        rw [toNat_getLsbD_zero]
        omega
      exact exists_encode_eq (.encbit (w.getLsbD 0)) rfl hopc hbit
    · exact exists_encode_eq (.setnb (w.toNat % 2 ^ 24)) (decide_eq_true harg) hopc rfl
  · rintro ⟨i, hi, hw⟩
    obtain ⟨hopc, harg⟩ := (encode_eq_iff hi).1 hw
    cases i with
    | setnb n => exact .inr (.inr ⟨hopc, harg.trans_lt (of_decide_eq_true hi)⟩)
    | encbit b => exact .inr (.inl ⟨hopc, harg.trans_lt b.toNat_lt⟩)
    | _ => exact .inl ⟨by rw [hopc]; decide, harg⟩

theorem legalWord_iff_decode {w : CommandWord} : legalWord w ↔ ∃ i, decode w = .ok i := by
  simp only [legalWord_iff_encode, decode_eq_ok_iff]

/-- An illegal word raises `Fault(1)` in a block that is not faulted. -/
theorem execWord_of_not_legalWord {w : CommandWord} {s : State} (hw : ¬ legalWord w) (h : s.fcode = .clear) :
    execWord w s = .next (raiseFault .illegalCommand s) := by
  cases hd : decode w with
  | ok i => exact absurd (legalWord_iff_decode.2 ⟨i, hd⟩) hw
  | error e => simp only [execWord, hd, execIllegal, unlessFaulted_clear _ h]

/-- `SETNB` with a budget out of range raises code 6 (spec/42_system.md R151). -/
theorem exec_setnb_of_out_of_range {n : Nat} {s : State} (h : s.fcode = .clear) (hn : n = 0 ∨ n > 983040) :
    exec (.setnb n) s = .next (raiseFault .badNb s) := by
  have hfault : Effects.commandFault (.setnb n) s = .badNb := if_pos hn
  rw [Effects.exec_of_clear _ h, hfault]
  rfl

/-- The word of `SETNB n`, as R93 writes it. -/
theorem encode_setnb {n : Nat} (hn : n < 2 ^ 20) : encode (.setnb n) = BitVec.ofNat 32 (0x02000000 + n) := by
  rw [encode, Nat.mod_eq_of_lt hn]

/-- Settles O5: the legal words are those that decode, and an out-of-range budget is rejected by the command. -/
theorem illegalWordRaisesFaultOne : Obligations.IllegalWordRaisesFaultOne := by
  refine ⟨fun s w rest hpending hclear hw => ?_, fun w => legalWord_iff_decode.1, ?_, ?_, fun n hn => ?_⟩
  · rw [Scope.step_of_pending_command hpending]
    exact execWord_of_not_legalWord hw hclear
  · dsimp only [legalWord]
    decide
  · dsimp only [legalWord]
    decide
  · have hwf : (Instr.setnb n).wellFormed = true := decide_eq_true hn
    rw [← encode_setnb hn]
    refine ⟨legalWord_iff_encode.2 ⟨_, hwf, rfl⟩, fun s rest hpending hclear hrange => ?_⟩
    rw [Scope.stepRunsTheDecodedInstruction s _ _ rest hpending (decode_encode hwf)]
    exact exec_setnb_of_out_of_range hclear hrange

end Sys2Proof.Proofs.Encoding
end

section
/-! How a command runs in a block that is not faulted (spec/60_exceptions.md R182), and that the coder and the predictor
do not write each other's registers (spec/40_predictor.md sections 1 to 3, spec/41_coder.md sections 3 to 6). -/

namespace Sys2Proof.Proofs.Units

open Sys2Proof.Machine Sys2Proof.Laws Sys2Proof.Proofs.Effects

theorem exec_of_legal (i : Instr) {s : State} (h : s.fcode = .clear) (hlegal : commandFault i s = .clear) :
    exec i s = .next (commandEffect i s) := by
  rw [exec_of_clear i h, if_pos hlegal]

theorem exec_of_fault (i : Instr) {s : State} {c : FaultCode} (h : s.fcode = .clear) (hfault : commandFault i s = c)
    (hc : c ≠ .clear) : exec i s = .next { s with fcode := c } := by
  rw [exec_of_clear i h, hfault, if_neg hc]
  rfl

/-- Settles O48: neither ignoring a command nor a fault writes a register of a unit, and the effect of each command
writes those of its own unit. -/
theorem coderAndPredictorAreSeparate : Obligations.CoderAndPredictorAreSeparate := by
  intro i s t h
  cases exec_cases h with
  | ignored => simp
  | faulted => simp
  | effect =>
    cases i with
    | cinit => simp [commandEffect]
    | setnb n => simp [commandEffect]
    | flush => simp [commandEffect]
    | predict => simp [commandEffect]
    | update =>
      obtain ⟨nf, cur, cn, he⟩ := update_writes s
      simp [he]
    | encbit b =>
      obtain ⟨lo, hi, n, out, he, -⟩ := encbit_writes b s
      simp [he]
    | decbit =>
      obtain ⟨lo, hi, v, n, i, c, he, -⟩ := decbit_writes s
      simp [he]
    | finish => simp [commandEffect]
    | seed => rcases seed_cases s with ⟨b0, b1, b2, rest, -, he⟩ | he <;> simp [he]

end Sys2Proof.Proofs.Units
end

section
/-! `FlushGraph()` (spec/40_predictor.md R110): what it leaves at each address, and that dropping the base-grid entries
of the node file (log entry 11) is the double loop of node writes. -/

namespace Sys2Proof.Proofs.Flush

open Sys2Proof.Machine Sys2Proof.Laws Sys2Proof.Proofs.Effects Sys2Proof.Proofs.CanonicalFile

theorem isBase_grid {c h : Nat} (hc : c < 256) (hlo : 1 ≤ h) (hhi : h ≤ 255) : isBase (c * 256 + h) = true :=
  isBase_iff.2 ⟨by omega, by omega⟩

theorem isBase_eq_false_iff {a : Nat} : isBase a = false ↔ 65536 ≤ a ∨ a % 256 = 0 := by
  rw [← Bool.not_eq_true, isBase_iff]
  omega

/-- A flush leaves the initial weights and the base topology at every base-grid node. -/
theorem nodeAt_flushGraph_grid (s : State) {c h : Nat} (hc : c < 256) (hlo : 1 ≤ h) (hhi : h ≤ 255) :
    nodeAt (flushGraph s).nf (c * 256 + h) =
      ⟨1 / 5, 1 / 5, BitVec.ofNat 20 (baseEdge (c * 256 + h) false), BitVec.ofNat 20 (baseEdge (c * 256 + h) true)⟩ :=
  nodeAt_filter_base s.nf (isBase_grid hc hlo hhi)

/-- A flush leaves every node outside the base grid. -/
theorem nodeAt_flushGraph_pool (s : State) {a : Nat} (ha : 65536 ≤ a ∨ a % 256 = 0) :
    nodeAt (flushGraph s).nf a = nodeAt s.nf a :=
  nodeAt_filter_pool s.nf (isBase_eq_false_iff.2 ha)

/-- Settles O16: `FLUSH` raises no fault, and its effect is `FlushGraph()` and two flags. -/
theorem flushResult : Obligations.FlushResult := fun s h =>
  ⟨_, Units.exec_of_legal .flush h rfl, rfl, fun _ _ => nodeAt_flushGraph_grid s, fun _ => nodeAt_flushGraph_pool s⟩

/-! The double loop, as writes to a list of addresses. -/

/-- One node write of the loop. -/
def writeFlushed (s : State) (a : Nat) : State := s.setNode (BitVec.ofNat 20 a) (flushedNode a)

/-- The addresses that the double loop writes, in its order. -/
def gridAddrs : List Nat :=
  (List.range Config.nctx).flatMap fun c => (List.range Config.nodesPerContext).map fun i => c * 256 + (i + 1)

theorem literal_flushGraph_eq (s : State) :
    Literal.flushGraph s = { gridAddrs.foldl writeFlushed s with cur := 0, cn := BitVec.ofNat 20 (root 0) } := by
  simp only [gridAddrs, List.foldl_flatMap, List.foldl_map]
  rfl

theorem mem_gridAddrs {a : Nat} : a ∈ gridAddrs ↔ isBase a = true := by
  simp only [gridAddrs, List.mem_flatMap, List.mem_map, List.mem_range, isBase_iff]
  constructor
  · rintro ⟨c, hc, i, hi, rfl⟩
    unfold Config.nctx at hc
    unfold Config.nodesPerContext at hi
    omega
  · rintro ⟨hlt, hne⟩
    refine ⟨a / 256, ?_, a % 256 - 1, ?_, by omega⟩
    · unfold Config.nctx
      omega
    · unfold Config.nodesPerContext
      omega

/-- Node writes touch the node file only. -/
theorem foldl_writeFlushed_eq (as : List Nat) (s : State) :
    as.foldl writeFlushed s = { s with nf := (as.foldl writeFlushed s).nf } := by
  induction as generalizing s with
  | nil => rfl
  | cons a as ih => exact ih (writeFlushed s a)

theorem wf_foldl_writeFlushed (as : List Nat) {s : State} (hw : s.nf.wf = true) :
    (as.foldl writeFlushed s).nf.wf = true := by
  induction as generalizing s with
  | nil => exact hw
  | cons a as ih => exact ih (wf_setNode _ _ hw)

theorem nodeAt_writeFlushed_same {s : State} {a : Nat} (hw : s.nf.wf = true) (ha : a < 2 ^ 20) :
    nodeAt (writeFlushed s a).nf a = flushedNode a := by
  rw [writeFlushed, setNode_nf, BitVec.toNat_ofNat, Nat.mod_eq_of_lt ha]
  exact nodeAt_putNode_same a _ hw

theorem nodeAt_writeFlushed_other (s : State) {a c : Nat} (ha : a < 2 ^ 20) (hc : c ≠ a) :
    nodeAt (writeFlushed s a).nf c = nodeAt s.nf c := by
  rw [writeFlushed, setNode_nf, BitVec.toNat_ofNat, Nat.mod_eq_of_lt ha]
  exact nodeAt_putNode_other s.nf _ hc

/-- After the writes every address of the list holds its flushed node, and every other one what it held. -/
theorem nodeAt_foldl_writeFlushed {as : List Nat} (has : ∀ a ∈ as, a < 2 ^ 20) {s : State} (hw : s.nf.wf = true)
    (c : Nat) :
    nodeAt (as.foldl writeFlushed s).nf c = if c ∈ as then flushedNode c else nodeAt s.nf c := by
  induction as generalizing s with
  | nil => rfl
  | cons a as ih =>
    have ha : a < 2 ^ 20 := has a List.mem_cons_self
    have hrest := ih (fun b hb => has b (List.mem_cons_of_mem a hb)) (s := writeFlushed s a) (wf_setNode _ _ hw)
    rw [List.foldl_cons, hrest]
    by_cases hca : c = a
    · subst hca
      simp [nodeAt_writeFlushed_same hw ha]
    · simp [nodeAt_writeFlushed_other s ha hca, hca]

/-- Dropping the base-grid entries is writing the flushed node at each base-grid address, in any order: both files are
canonical and read alike. -/
theorem flushGraph_nf_eq_foldl {as : List Nat} (has : ∀ a, a ∈ as ↔ isBase a = true) {s : State}
    (hw : s.nf.wf = true) : (flushGraph s).nf = (as.foldl writeFlushed s).nf := by
  refine eq_of_nodeAt_eq (wf_flushGraph hw) (wf_foldl_writeFlushed as hw) fun a => ?_
  have hspace : ∀ b ∈ as, b < 2 ^ 20 := fun b hb => by
    have := isBase_iff.1 ((has b).1 hb)
    omega
  rw [nodeAt_foldl_writeFlushed hspace hw]
  split_ifs with ha
  · exact nodeAt_filter_base s.nf ((has a).1 ha)
  · exact nodeAt_filter_pool s.nf (by simpa [has] using ha)

/-- Settles O17: the loop visits exactly the base grid, and writes the node file only. -/
theorem flushGraphIsTheDoubleLoop : Obligations.FlushGraphIsTheDoubleLoop := by
  intro s hw
  rw [literal_flushGraph_eq, foldl_writeFlushed_eq, ← flushGraph_nf_eq_foldl (fun _ => mem_gridAddrs) hw]
  rfl

end Sys2Proof.Proofs.Flush
end

section
/-! `PREDICT` (spec/40_predictor.md R111). -/

namespace Sys2Proof.Proofs.Prediction

open Sys2Proof.Machine Sys2Proof.Safety Sys2Proof.Laws Sys2Proof.Proofs.Effects Sys2Proof.Proofs.Units

theorem exec_predict_of_legal {s : State} (h : s.fcode = .clear) (hgv : s.gv = true)
    (haddr : s.implements s.cn.toNat = true) :
    exec .predict s =
      .next { s with p := Num.probability (currentNode s).w0 (currentNode s).w1, pv := true } :=
  exec_of_legal .predict h (commandFault_predict.2 ⟨hgv, haddr⟩)

theorem probability_of_ne {w0 w1 : Weight} (h : w0 + w1 ≠ 0) : Num.probability w0 w1 = w0 / (w0 + w1) := if_neg h

/-- Settles O19: a legal `PREDICT` writes the quotient, and the graph is checked before the address. -/
theorem predictResult : Obligations.PredictResult := by
  intro s h
  refine ⟨fun hgv haddr htotal => ?_, fun hgv => ?_, fun hgv haddr => ?_⟩
  · rw [exec_predict_of_legal h hgv haddr, currentNode, probability_of_ne htotal]
  · exact exec_of_fault .predict h (by simp [commandFault, hgv]) (by decide)
  · exact exec_of_fault .predict h (by simp [commandFault, hgv, haddr]) (by decide)

/-- Settles O20: the value in `P` is the free one (log entry 5). -/
theorem predictCompletesOnZeroTotal : Obligations.PredictCompletesOnZeroTotal :=
  fun _ h hgv haddr _ => ⟨_, exec_predict_of_legal h hgv haddr⟩

/-- Settles O21: the current node is in use, so it has an implemented address and positive weights (R42, R44). -/
theorem predictGivesAProperProbability : Obligations.PredictGivesAProperProbability := by
  intro s hs hgv h
  have hg := hs.graph hgv
  have hnode : NodeOk s.cur.toNat s.cn.toNat (s.node s.cn) := hg.nodes _ hg.current
  have htotal : (s.node s.cn).w0 + (s.node s.cn).w1 ≠ 0 := (add_pos hnode.w0_pos hnode.w1_pos).ne'
  obtain ⟨hpos, hlt⟩ := Soundness.probability_proper hg
  refine ⟨_, exec_predict_of_legal h hgv (implements_of_inUse hg.cursor.le hg.current), hpos, hlt, ?_⟩
  rw [currentNode, probability_of_ne htotal, div_mul_cancel₀ _ htotal]

end Sys2Proof.Proofs.Prediction
end

section
/-! `UPDATE` (spec/40_predictor.md R112 to R115): its faults, the nodes after the cloning writes, and the state that the
command leaves, with and without a clone. -/

namespace Sys2Proof.Proofs.UpdateResult

open Sys2Proof.Machine Sys2Proof.Safety Sys2Proof.Laws Sys2Proof.Proofs.Effects Sys2Proof.Proofs.SoundGraph

/-! The values that the statements name are those that the model reads in step 1 of R112. -/

theorem updateTarget_eq (s : State) : updateTarget s = targetAddr s := rfl

theorem updateClones_iff {s : State} : updateClones s ↔ wantsClone s = true := by
  simp only [wantsClone, Num.cloneWanted, Bool.and_eq_true, decide_eq_true_eq]
  rfl

theorem setWeight_increment (b : Bool) (m : Node) :
    m.setWeight b (Num.increment (m.weight b)) = counted b m := by
  cases b <;> rfl

/-! The checks (R182). -/

/-- Settles O26: the checks in their order; each is reached where those before it pass. -/
theorem updateFaults : Obligations.UpdateFaults := by
  intro s h
  refine ⟨fun hgv => ?_, fun hgv hbv => ?_, fun hgv hbv haddr => ?_⟩
  · exact Units.exec_of_fault .update h (by simp [commandFault, updateFault, hgv]) (by decide)
  · exact Units.exec_of_fault .update h (by simp [commandFault, updateFault, hgv, hbv]) (by decide)
  · rw [updateTarget_eq] at haddr
    refine Units.exec_of_fault .update h ?_ (by decide)
    rcases haddr with hcn | htarget
    · simp [commandFault, updateFault, hgv, hbv, hcn]
    · simp [commandFault, updateFault, hgv, hbv, htarget]

/-- With the cursor below a legal budget the slot at the cursor is implemented (spec/20_memory.md R61, R64). -/
theorem implements_slotAddr {s : State} (hcur : s.cur.toNat < s.nb.toNat) (hnb : s.nb.toNat ≤ Config.nbMax) :
    s.implements (slotAddr s) = true := by
  have hlo : Config.poolBase ≤ slotAddr s := Nat.le_add_right _ _
  have hbudget : slotAddr s < Config.poolBase + s.nb.toNat := Nat.add_lt_add_left hcur _
  have hspace : slotAddr s < Config.nodeSpace := hbudget.trans_le (Nat.add_le_add_left hnb Config.poolBase)
  simp [State.implements, implemented, hlo, hbudget, hspace]

/-- In a sound state with a valid graph and a valid bit `UPDATE` passes its checks. -/
theorem updateFault_of_updateLegal {s : State} (h : updateLegal s) : updateFault s = .clear := by
  obtain ⟨hs, -, hgv, hbv⟩ := h
  have hg := hs.graph hgv
  have hcn := implements_of_inUse hg.cursor.le hg.current
  have htarget := implements_of_inUse hg.cursor.le (inUse_targetAddr hg.current hg.nodes)
  have hslot := implements_slotAddr hg.cursor hs.budget.2
  simp [updateFault, hgv, hbv, hcn, htarget, hslot]

theorem exec_update_of_updateLegal {s : State} (h : updateLegal s) :
    exec .update s = .next (enterNext s.cn s.bit (recordBit s.cn s.bit (cloneStep s))) := by
  have hlegal : commandFault .update s = .clear := updateFault_of_updateLegal h
  obtain ⟨-, hclear, -⟩ := h
  exact Units.exec_of_legal .update hclear hlegal

theorem inv_of_updateLegal {s : State} (h : updateLegal s) : Inv s := by
  obtain ⟨hs, -⟩ := h
  exact hs

theorem graphOk_of_updateLegal {s : State} (h : updateLegal s) : GraphOk s := by
  obtain ⟨hs, -, hgv, -⟩ := h
  exact hs.graph hgv

/-! Recording the bit (R112, step 3). -/

theorem nodeAt_recordBit_same {s : State} (n : NodeAddr) (b : Bool) (hw : s.nf.wf = true) :
    nodeAt (recordBit n b s).nf n.toNat = counted b (s.node n) :=
  (node_recordBit_same n b hw).trans (setWeight_increment b _)

theorem nodeAt_recordBit_other {s : State} {n : NodeAddr} {a : Nat} (b : Bool) (ha : a ≠ n.toNat) :
    nodeAt (recordBit n b s).nf a = nodeAt s.nf a :=
  nodeAt_putNode_other s.nf _ ha

theorem edge_counted (b c : Bool) (m : Node) : (counted b m).edge c = m.edge c := rfl

/-- With room in the pool after step 2, `UPDATE` records the bit and follows the edge of the bit. -/
theorem recordBit_enterNext_of_room {s : State} (n : NodeAddr) (b : Bool) (hw : s.nf.wf = true)
    (hroom : s.cur.toNat < s.nb.toNat) :
    enterNext n b (recordBit n b s) =
      { s with nf := (recordBit n b s).nf, cn := (s.node n).edge b, bv := false, pv := false } := by
  have hedge : ((recordBit n b s).node n).edge b = (s.node n).edge b := by
    rw [State.node, nodeAt_recordBit_same n b hw, edge_counted]
  rw [enterNext_of_room (s := recordBit n b s) n b hroom, hedge]
  rfl

/-- With the pool full after step 2, `UPDATE` ends in a flushed graph (R115). -/
theorem recordBit_enterNext_of_full {s : State} (n : NodeAddr) (b : Bool) (hfull : s.nb.toNat ≤ s.cur.toNat) :
    enterNext n b (recordBit n b s) =
      { s with nf := (flushGraph (recordBit n b s)).nf, cur := 0, cn := 0x00001, bv := false, pv := false } := by
  rw [enterNext_of_full (s := recordBit n b s) n b hfull]
  rfl

/-! Without cloning. -/

/-- Settles O22: step 2 does nothing, and the room that the cursor invariant gives is still there. -/
theorem updateWithoutCloning : Obligations.UpdateWithoutCloning := by
  intro s h hclones
  have hw := (inv_of_updateLegal h).file
  have hclone : wantsClone s = false := by rwa [updateClones_iff, Bool.not_eq_true] at hclones
  have hexec : exec .update s = .next { s with
      nf := (recordBit s.cn s.bit s).nf, cn := updateTarget s, bv := false, pv := false } := by
    rw [exec_update_of_updateLegal h, cloneStep_of_no_clone hclone,
      recordBit_enterNext_of_room s.cn s.bit hw (graphOk_of_updateLegal h).cursor]
    rfl
  exact ⟨_, hexec, rfl, nodeAt_recordBit_same s.cn s.bit hw, fun a ha => nodeAt_recordBit_other s.bit ha⟩

/-! The nodes after the cloning writes (R112, step 2). Their three addresses differ: the slot is not in use, and the
graph has no self-edge. -/

/-- The target with the weights that the clone leaves it. -/
def restNode (s : State) : Node where
  w0 := Num.remainder (targetNode s).w0 (movedShare s (targetNode s).w0)
  w1 := Num.remainder (targetNode s).w1 (movedShare s (targetNode s).w1)
  e0 := (targetNode s).e0
  e1 := (targetNode s).e1

section
variable {s : State} (hw : s.nf.wf = true) (hnb : s.nb.toNat ≤ Config.nbMax) (hg : GraphOk s)

include hg in
theorem targetAddr_ne_cn : (targetAddr s).toNat ≠ s.cn.toNat := by
  have hnode : NodeOk s.cur.toNat s.cn.toNat (currentNode s) := hg.nodes _ hg.current
  unfold targetAddr
  cases s.bit
  · exact hnode.e0_ne
  · exact hnode.e1_ne

include hnb hg in
theorem slot_ne_cn : (slot s).toNat ≠ s.cn.toNat := by
  rw [toNat_slot hg.cursor hnb]
  exact (ne_slot_of_inUse hg.current).symm

include hnb hg in
theorem slot_ne_targetAddr : (slot s).toNat ≠ (targetAddr s).toNat := by
  rw [toNat_slot hg.cursor hnb]
  exact (ne_slot_of_inUse (inUse_targetAddr hg.current hg.nodes)).symm

theorem nodeAt_cloneTarget_other {a : Nat} (hslot : a ≠ (slot s).toNat) (htarget : a ≠ (targetAddr s).toNat)
    (hcn : a ≠ s.cn.toNat) : nodeAt (cloneTarget s).nf a = nodeAt s.nf a := by
  rw [cloneTarget_nf, nodeAt_putNode_other _ _ hcn, keptFile, nodeAt_putNode_other _ _ htarget, slotFile,
    nodeAt_putNode_other _ _ hslot]

include hw hnb hg

/-- The new node has its share of the target's weights, and the target's edges. -/
theorem nodeAt_cloneTarget_slot : nodeAt (cloneTarget s).nf (slot s).toNat = slotNode s := by
  rw [cloneTarget_nf, nodeAt_putNode_other _ _ (slot_ne_cn hnb hg), keptFile,
    nodeAt_putNode_other _ _ (slot_ne_targetAddr hnb hg), slotFile, nodeAt_putNode_same _ _ hw]

/-- The target keeps the rest of its weights, and its edges. -/
theorem nodeAt_cloneTarget_target :
    nodeAt (cloneTarget s).nf (targetAddr s).toNat = restNode s := by
  have hread : nodeAt (slotFile s) (targetAddr s).toNat = targetNode s :=
    nodeAt_putNode_other s.nf _ (slot_ne_targetAddr hnb hg).symm
  rw [cloneTarget_nf, nodeAt_putNode_other _ _ (targetAddr_ne_cn hg), keptFile,
    nodeAt_putNode_same _ _ (wf_slotFile hw), keptNode, hread, restNode]

/-- The current node is redirected to the new node. -/
theorem nodeAt_cloneTarget_cn :
    nodeAt (cloneTarget s).nf s.cn.toNat = (s.node s.cn).setEdge s.bit (slot s) := by
  have hread : nodeAt (keptFile s) s.cn.toNat = s.node s.cn := by
    rw [keptFile, nodeAt_putNode_other _ _ (targetAddr_ne_cn hg).symm, slotFile,
      nodeAt_putNode_other _ _ (slot_ne_cn hnb hg).symm]
    rfl
  rw [cloneTarget_nf, nodeAt_putNode_same _ _ (wf_keptFile hw), redirectedNode, hread]

end

/-- The share `u / t` of the weights of a node with total `t` sums to `u`. -/
theorem share_sum {w0 w1 u t : Weight} (ht : w0 + w1 = t) (hpos : 0 < t) : w0 * (u / t) + w1 * (u / t) = u := by
  rw [← add_mul, ht, mul_div_cancel₀ _ hpos.ne']

/-- The share `u / t` of a weight is to `u` what the weight is to `t`. -/
theorem share_div {w u t : Weight} (hu : u ≠ 0) : w * (u / t) / u = w / t := by
  rw [mul_div_assoc, div_div_cancel_left' hu, div_eq_mul_inv]

/-- Settles O25: the new node takes the share `used / total` of each weight and the target keeps the rest. -/
theorem cloningConservesWeight : Obligations.CloningConservesWeight := by
  intro s hs hgv hclones t new kept old
  obtain ⟨-, hnb⟩ := hs.budget
  have hg := hs.graph hgv
  have hslot : (slot s).toNat = 0x10000 + s.cur.toNat := toNat_slot hg.cursor hnb
  have hnew : new = slotNode s := by
    rw [← nodeAt_cloneTarget_slot hs.file hnb hg, hslot]
  have hkept : kept = restNode s := nodeAt_cloneTarget_target hs.file hnb hg
  have hold : NodeOk s.cur.toNat (targetAddr s).toNat old := hg.nodes _ (inUse_targetAddr hg.current hg.nodes)
  obtain ⟨hr0, hr1⟩ := ratio_proper (updateClones_iff.1 hclones)
  obtain ⟨hnew0, hkept0⟩ := portion_remainder_pos hold.w0_pos hr0 hr1
  obtain ⟨hnew1, hkept1⟩ := portion_remainder_pos hold.w1_pos hr0 hr1
  obtain ⟨hused, htotal⟩ := hclones
  have hused_pos : 0 < updateUsed s := by linarith
  have htotal_pos : 0 < updateTotal s := by linarith
  have hsum : (slotNode s).w0 + (slotNode s).w1 = updateUsed s := share_sum rfl htotal_pos
  have h0 : (slotNode s).w0 + (restNode s).w0 = old.w0 := add_sub_cancel _ _
  have h1 : (slotNode s).w1 + (restNode s).w1 = old.w1 := add_sub_cancel _ _
  have hrest : (restNode s).w0 + (restNode s).w1 = updateTotal s - updateUsed s := by
    have htot : old.w0 + old.w1 = updateTotal s := rfl
    linarith
  have hpredicts : (slotNode s).w0 / updateUsed s = old.w0 / updateTotal s := share_div hused_pos.ne'
  rw [hnew, hkept, hsum]
  exact ⟨h0, h1, rfl, hrest, by linarith, hnew0, hnew1, hkept0, hkept1, hpredicts⟩

/-! With cloning. -/

/-- Where the cloning rule holds in a sound state, step 2 of `UPDATE` clones. -/
theorem cloneStep_of_updateClones {s : State} (hg : GraphOk s) (h : updateClones s) : cloneStep s = cloneTarget s :=
  cloneStep_of_clone (updateClones_iff.1 h) (poolOverflows_eq_false hg.cursor)

theorem toNat_cloneTarget_cur {s : State} (hg : GraphOk s) : (cloneTarget s).cur.toNat = s.cur.toNat + 1 :=
  toNat_cur_succ hg.cursor

/-- A bit counted on a redirected node. -/
theorem counted_setEdge (b : Bool) (a : NodeAddr) (m : Node) :
    counted b (m.setEdge b a) =
      ⟨(counted b m).w0, (counted b m).w1, if b then m.e0 else a, if b then a else m.e1⟩ := by
  cases b <;> rfl

/-- The edge of the bit at the current node after the cloning writes leads to the new node. -/
theorem edge_cloneTarget_cn {s : State} (hw : s.nf.wf = true) (hnb : s.nb.toNat ≤ Config.nbMax) (hg : GraphOk s) :
    ((cloneTarget s).node s.cn).edge s.bit = slot s := by
  rw [State.node, nodeAt_cloneTarget_cn hw hnb hg, edge_setEdge_same]

/-- A clone with room left after it: the bit is recorded and `CN` is the new node. -/
theorem exec_update_of_clone_room {s : State} (h : updateLegal s) (hclones : updateClones s)
    (hroom : s.cur.toNat + 1 < s.nb.toNat) :
    exec .update s = .next { s with
      nf := (recordBit s.cn s.bit (cloneTarget s)).nf, cur := s.cur + 1, cn := slot s, bv := false, pv := false } := by
  have hw := (inv_of_updateLegal h).file
  obtain ⟨-, hnb⟩ := (inv_of_updateLegal h).budget
  have hg := graphOk_of_updateLegal h
  have hroom' : (cloneTarget s).cur.toNat < (cloneTarget s).nb.toNat := by
    rwa [toNat_cloneTarget_cur hg]
  rw [exec_update_of_updateLegal h, cloneStep_of_updateClones hg hclones,
    recordBit_enterNext_of_room s.cn s.bit (CanonicalFile.wf_cloneTarget hw) hroom', edge_cloneTarget_cn hw hnb hg]
  rfl

/-- Settles O23: the three cloning writes at their three addresses, then the recorded bit. -/
theorem updateWithCloning : Obligations.UpdateWithCloning := by
  intro s h hclones hroom
  have hw := (inv_of_updateLegal h).file
  obtain ⟨-, hnb⟩ := (inv_of_updateLegal h).budget
  have hg := graphOk_of_updateLegal h
  have hslot : (slot s).toNat = 0x10000 + s.cur.toNat := toNat_slot hg.cursor hnb
  refine ⟨_, exec_update_of_clone_room h hclones hroom, rfl, ?_, ?_, ?_, fun a haslot hatarget hacn => ?_⟩
  · rw [← hslot]
    exact (nodeAt_recordBit_other s.bit (slot_ne_cn hnb hg)).trans (nodeAt_cloneTarget_slot hw hnb hg)
  · exact (nodeAt_recordBit_other s.bit (targetAddr_ne_cn hg)).trans (nodeAt_cloneTarget_target hw hnb hg)
  · rw [nodeAt_recordBit_same s.cn s.bit (CanonicalFile.wf_cloneTarget hw), State.node,
      nodeAt_cloneTarget_cn hw hnb hg]
    exact counted_setEdge s.bit (slot s) (s.node s.cn)
  · exact (nodeAt_recordBit_other s.bit hacn).trans (nodeAt_cloneTarget_other (hslot ▸ haslot) hatarget hacn)

/-- A clone that takes the last slot: the graph is flushed. -/
theorem exec_update_of_clone_last {s : State} (h : updateLegal s) (hclones : updateClones s)
    (hlast : s.cur.toNat + 1 = s.nb.toNat) :
    exec .update s = .next { s with
      nf := (flushGraph (recordBit s.cn s.bit (cloneTarget s))).nf, cur := 0, cn := 0x00001, bv := false,
      pv := false } := by
  have hg := graphOk_of_updateLegal h
  have hfull : (cloneTarget s).nb.toNat ≤ (cloneTarget s).cur.toNat := by
    rw [toNat_cloneTarget_cur hg]
    exact hlast.ge
  rw [exec_update_of_updateLegal h, cloneStep_of_updateClones hg hclones,
    recordBit_enterNext_of_full s.cn s.bit hfull]
  rfl

/-- Settles O24: the flush decides the base grid, and keeps what the clone and the recorded bit left elsewhere. -/
theorem updateThatFillsThePoolFlushes : Obligations.UpdateThatFillsThePoolFlushes := by
  intro s h hclones hlast
  obtain ⟨-, hnb⟩ := (inv_of_updateLegal h).budget
  have hg := graphOk_of_updateLegal h
  have hslot : (slot s).toNat = 0x10000 + s.cur.toNat := toNat_slot hg.cursor hnb
  refine ⟨_, exec_update_of_clone_last h hclones hlast, rfl, fun _ _ => Flush.nodeAt_flushGraph_grid _,
    fun a hpool haslot hatarget hacn => ?_⟩
  calc nodeAt (flushGraph (recordBit s.cn s.bit (cloneTarget s))).nf a
      = nodeAt (recordBit s.cn s.bit (cloneTarget s)).nf a := Flush.nodeAt_flushGraph_pool _ hpool
    _ = nodeAt (cloneTarget s).nf a := nodeAt_recordBit_other s.bit hacn
    _ = nodeAt s.nf a := nodeAt_cloneTarget_other (hslot ▸ haslot) hatarget hacn

/-! The overflow branch (R113). -/

/-- `UPDATE` never writes `GV`. -/
theorem gv_of_exec_update {s t : State} (h : exec .update s = .next t) : t.gv = s.gv := by
  cases exec_cases h with
  | ignored => rfl
  | faulted => rfl
  | effect =>
    obtain ⟨nf, cur, cn, he⟩ := update_writes s
    rw [he]

/-- Settles O45: the cursor invariant (R43) before `UPDATE` and, since the command keeps it, after. -/
theorem poolOverflowIsUnreachable : Obligations.PoolOverflowIsUnreachable := by
  intro s t hs hgv h
  have hbefore := hs.graph hgv
  have hafter := updateKeepsTheGraphSound s t hs.file hs.budget.2 hbefore h
  exact ⟨poolOverflows_eq_false hbefore.cursor, poolOverflows_eq_false hafter.cursor,
    (gv_of_exec_update h).trans hgv⟩

end Sys2Proof.Proofs.UpdateResult
end

section
/-! The arithmetic of the interval (spec/41_coder.md R130, R131, R136, R137): the split point in closed form, `Shift()`
from any bounds, the literal `while` loops, and the bounds that a coding command hands to `Shift()`. -/

namespace Sys2Proof.Proofs.CoderInterval

open Sys2Proof.Machine Sys2Proof.Laws Sys2Proof.Proofs.SoundInterval

/-! The split point (R130). -/

theorem scale_eq_floor (range : Nat) {p : Weight} (hp : 0 ≤ p) :
    (Num.scale range p : Int) = ⌊(range : ℚ) * p⌋ :=
  Int.toNat_of_nonneg (Int.floor_nonneg.2 (mul_nonneg range.cast_nonneg hp))

/-- Where one value is left the first clamp takes the split point to `hi`, and the second does not see it there. -/
theorem mid_of_width_one {lo : Nat} {p : Weight} (hp : p ≤ 1) : mid lo (lo + 1) p = lo + 1 := by
  have hscale := scale_le (range := lo + 1 - lo - 1) hp
  unfold mid
  simp only
  split_ifs <;> omega

/-- Where two values are left the second clamp takes the split point back to `lo`. -/
theorem mid_of_width_two {lo : Nat} {p : Weight} (hp : p ≤ 1) : mid lo (lo + 2) p = lo := by
  have hscale := scale_le (range := lo + 2 - lo - 1) hp
  unfold mid
  simp only
  split_ifs <;> omega

/-- Settles O27: the offset is the model's scaling, and each width has its lemma. -/
theorem midSplitsStrictlyInside : Obligations.MidSplitsStrictlyInside := by
  intro lo hi p hlt _ hp0 hp1
  refine ⟨⟨Num.scale (hi - lo - 1) p, scale_eq_floor _ hp0, scale_le hp1, _, rfl, ?_⟩, fun hwide => ?_, ?_, ?_⟩
  · have hclamp (m : Nat) : m + 1 = hi ↔ m = hi - 1 := by omega
    simp only [mid, hclamp]
  · obtain ⟨hlow, hhigh⟩ := mid_inside hwide hp1
    omega
  · rintro rfl
    exact mid_of_width_two hp1
  · rintro rfl
    exact mid_of_width_one hp1

/-! `Shift()` (R131) and the loops around it (R136). -/

/-- Settles O28: both bounds in closed form, and the room between them. -/
theorem shiftOpensTheInterval : Obligations.ShiftOpensTheInterval := fun s =>
  ⟨shiftInterval_min_toNat s, shiftInterval_max_toNat s, (shiftInterval_wide s).1, (shiftInterval_wide s).2, rfl⟩

theorem floor_le_width_shiftInterval (s : State) : Config.floor ≤ (shiftInterval s).width :=
  Nat.le_sub_of_add_le' (shiftInterval_wide s).1

/-- A body of the encoder's loop ends with `Shift()`. -/
theorem floor_le_width_emitStep (b : Bool) (s : State) : Config.floor ≤ (emitStep b s).width :=
  floor_le_width_shiftInterval _

/-- A body of the decoder's loop ends with `Shift()`, or in `ENDED` where no byte is left. -/
theorem fetchStep_ended_or_wide (b : Bool) (s : State) :
    (fetchStep b s).cstate = .ended ∨ Config.floor ≤ (fetchStep b s).width := by
  unfold fetchStep
  simp only
  split
  · exact .inl rfl
  · exact .inr (floor_le_width_shiftInterval _)

theorem encodeLoop_of_wide {s : State} (b : Bool) (n : Nat) (h : Config.floor ≤ s.width) :
    Literal.encodeLoop b n s = some s := by
  cases n with
  | zero => exact if_neg (Nat.not_lt.2 h)
  | succ n => exact if_neg (Nat.not_lt.2 h)

theorem decodeLoop_of_stopped {s : State} (b : Bool) (n : Nat) (h : s.cstate ≠ .dec ∨ Config.floor ≤ s.width) :
    Literal.decodeLoop b n s = some s := by
  have hstop : ¬(s.width < Config.floor ∧ s.cstate = .dec) := by
    rintro ⟨hnarrow, hdec⟩
    rcases h with h | h
    · exact h hdec
    · exact absurd hnarrow (Nat.not_lt.2 h)
  cases n with
  | zero => exact if_neg hstop
  | succ n => exact if_neg hstop

/-- The state after a body of the decoder's loop stops the loop. -/
theorem fetchStep_stopped (b : Bool) (s : State) :
    (fetchStep b s).cstate ≠ .dec ∨ Config.floor ≤ (fetchStep b s).width :=
  (fetchStep_ended_or_wide b s).imp_left fun h => by simp [h]

theorem encodeLoop_eq_renormEncode (b : Bool) (n : Nat) (s : State) :
    Literal.encodeLoop b (n + 1) s = some (renormEncode b s) := by
  by_cases h : s.width < Config.floor
  · calc Literal.encodeLoop b (n + 1) s
        _ = Literal.encodeLoop b n (emitStep b s) := if_pos h
        _ = some (emitStep b s) := encodeLoop_of_wide b n (floor_le_width_emitStep b s)
        _ = some (renormEncode b s) := by rw [renormEncode, if_pos h]
  · rw [renormEncode, if_neg h, encodeLoop_of_wide b _ (Nat.not_lt.1 h)]

theorem decodeLoop_eq_renormDecode (b : Bool) (n : Nat) {s : State} (hdec : s.cstate = .dec) :
    Literal.decodeLoop b (n + 1) s = some (renormDecode b s) := by
  by_cases h : s.width < Config.floor
  · calc Literal.decodeLoop b (n + 1) s
        _ = Literal.decodeLoop b n (fetchStep b s) := if_pos ⟨h, hdec⟩
        _ = some (fetchStep b s) := decodeLoop_of_stopped b n (fetchStep_stopped b s)
        _ = some (renormDecode b s) := by rw [renormDecode, if_pos h]
  · rw [renormDecode, if_neg h, decodeLoop_of_stopped b _ (.inr (Nat.not_lt.1 h))]

theorem floor_le_width_renormEncode (b : Bool) (s : State) : Config.floor ≤ (renormEncode b s).width := by
  unfold renormEncode
  split_ifs with h
  · exact floor_le_width_emitStep b s
  · exact Nat.not_lt.1 h

theorem renormDecode_stopped (b : Bool) (s : State) :
    (renormDecode b s).cstate ≠ .dec ∨ Config.floor ≤ (renormDecode b s).width := by
  unfold renormDecode
  split_ifs with h
  · exact fetchStep_stopped b s
  · exact .inr (Nat.not_lt.1 h)

/-- Settles O29: the first body leaves a state in which the loop stops. -/
theorem renormalizationLoopsRunOnce : Obligations.RenormalizationLoopsRunOnce := fun s b n =>
  ⟨encodeLoop_eq_renormEncode b n s, floor_le_width_renormEncode b s, fun hdec =>
    ⟨decodeLoop_eq_renormDecode b n hdec, (renormDecode_stopped b s).resolve_left ∘ not_not_intro⟩⟩

/-! The bounds inside a coding command, as the statements name them (R132, R137). -/

section

variable {s : State}

theorem splitPoint_inside (h : codable s) :
    s.min.toNat + 1 ≤ splitPoint s ∧ splitPoint s + 2 ≤ s.max.toNat ∧ s.max.toNat ≤ 2 ^ 24 := by
  obtain ⟨hwide, hceiling, -, hp⟩ := h
  obtain ⟨hlow, hhigh⟩ := mid_inside (lo := s.min.toNat) (hi := s.max.toNat) (by omega) hp
  exact ⟨hlow, hhigh, hceiling⟩

theorem narrow_min_toNat (b : Bool) (h : codable s) :
    (narrow b (splitPoint s) s).min.toNat = narrowedMin b s := by
  obtain ⟨-, hhigh, hceiling⟩ := splitPoint_inside h
  cases b with
  | true => exact narrow_min_of_true (by omega)
  | false => rfl

theorem narrow_max_toNat (b : Bool) (h : codable s) :
    (narrow b (splitPoint s) s).max.toNat = narrowedMax b s := by
  obtain ⟨-, hhigh, hceiling⟩ := splitPoint_inside h
  cases b with
  | true => rfl
  | false => exact narrow_max_of_false (by omega)

theorem width_narrow (b : Bool) (h : codable s) :
    (narrow b (splitPoint s) s).width = narrowedMax b s - narrowedMin b s := by
  rw [State.width, narrow_min_toNat b h, narrow_max_toNat b h]

theorem correct_narrow_max_toNat (b : Bool) (h : codable s) :
    (correct b (narrow b (splitPoint s) s)).max.toNat = correctedMax b s := by
  rw [correct_max_toNat, narrow_max_toNat b h]
  rfl

/-- The correction leaves a value between the bounds, and `MAX` below the ceiling (R137). -/
theorem correctedMax_bounds (b : Bool) (h : codable s) :
    narrowedMin b s < correctedMax b s ∧ correctedMax b s < 2 ^ 24 := by
  obtain ⟨hlow, hhigh, hceiling⟩ := splitPoint_inside h
  cases b with
  | true =>
    change splitPoint s < s.max.toNat - 1 ∧ s.max.toNat - 1 < 2 ^ 24
    omega
  | false =>
    change s.min.toNat < splitPoint s ∧ splitPoint s < 2 ^ 24
    omega

theorem correctedMax_le_narrowedMax (b : Bool) (s : State) : correctedMax b s ≤ narrowedMax b s := by
  cases b with
  | true => exact Nat.sub_le _ 1
  | false => exact Nat.le_refl _

/-- `Shift()` of a state that holds the narrowed and corrected bounds. -/
theorem shiftInterval_bounds {b : Bool} {u : State} (hmin : u.min.toNat = narrowedMin b s)
    (hmax : u.max.toNat = correctedMax b s) :
    (shiftInterval u).min.toNat = narrowedMin b s % 65536 * 256 ∧ (shiftInterval u).max.toNat = shiftedMax b s := by
  rw [shiftInterval_min_toNat, shiftInterval_max_toNat, hmin, hmax]
  exact ⟨rfl, rfl⟩

end

/-- Settles O34: for bit 0 the split point is at least 2 below `MAX`, for bit 1 the correction takes 1 off. -/
theorem shiftNeverSeesTheCeiling : Obligations.ShiftNeverSeesTheCeiling := by
  intro s b h _
  obtain ⟨-, hbelow⟩ := correctedMax_bounds b h
  refine ⟨correct_narrow_max_toNat b h, hbelow, ?_, fun _ => Nat.le_sub_one_of_lt hbelow⟩
  rintro rfl
  obtain ⟨-, hhigh, hceiling⟩ := splitPoint_inside h
  exact ⟨rfl, show splitPoint s ≤ 2 ^ 24 - 2 by omega⟩

end Sys2Proof.Proofs.CoderInterval
end

section
/-! The coder commands (spec/41_coder.md R132 to R135, R139): the state that each leaves, and its faults. -/

namespace Sys2Proof.Proofs.CoderResult

open Sys2Proof.Machine Sys2Proof.Laws Sys2Proof.Proofs.Effects Sys2Proof.Proofs.Units Sys2Proof.Proofs.CoderInterval

/-! The bytes of a 24-bit register (spec/20_memory.md R67). -/

theorem extract_top_byte (x : BitVec 24) : x.extractLsb' 16 8 = BitVec.ofNat 8 (x.toNat / 65536) := by
  rw [BitVec.extractLsb', Nat.shiftRight_eq_div_pow]

theorem toNat_bytes (x : BitVec 24) :
    (x.extractLsb' 16 8).toNat * 65536 + (x.extractLsb' 8 8).toNat * 256 + (x.extractLsb' 0 8).toNat = x.toNat := by
  have hx := x.isLt
  simp only [BitVec.extractLsb'_toNat, Nat.shiftRight_eq_div_pow]
  omega

theorem toNat_of_three_bytes (b0 b1 b2 : Byte) :
    (BitVec.ofNat 24 (b0.toNat * 65536 + b1.toNat * 256 + b2.toNat)).toNat =
      b0.toNat * 65536 + b1.toNat * 256 + b2.toNat := by
  rw [BitVec.toNat_ofNat]
  omega

/-! `ENCBIT` (R132, R139). -/

theorem encbit_frame (b : Bool) (s : State) :
    commandEffect (.encbit b) s = { s with
      min := (commandEffect (.encbit b) s).min, max := (commandEffect (.encbit b) s).max,
      rcnt := (commandEffect (.encbit b) s).rcnt, output := (commandEffect (.encbit b) s).output,
      bit := b, bv := true, pv := false, cstate := .enc } := by
  obtain ⟨lo, hi, n, out, he, -⟩ := encbit_writes b s
  rw [he]

theorem encbit_of_wide {s : State} {b : Bool} (h : codable s) (hwide : 256 ≤ narrowedMax b s - narrowedMin b s) :
    (commandEffect (.encbit b) s).min.toNat = narrowedMin b s ∧
    (commandEffect (.encbit b) s).max.toNat = narrowedMax b s ∧
    (commandEffect (.encbit b) s).rcnt = s.rcnt ∧ (commandEffect (.encbit b) s).output = s.output := by
  rw [← width_narrow b h] at hwide
  simp only [commandEffect, renormEncode_of_wide hwide]
  exact ⟨narrow_min_toNat b h, narrow_max_toNat b h, rfl, rfl⟩

theorem encbit_of_narrow {s : State} {b : Bool} (h : codable s) (hnarrow : narrowedMax b s - narrowedMin b s < 256) :
    (commandEffect (.encbit b) s).min.toNat = narrowedMin b s % 65536 * 256 ∧
    (commandEffect (.encbit b) s).max.toNat = shiftedMax b s ∧
    (commandEffect (.encbit b) s).rcnt = s.rcnt + 1 ∧
    (commandEffect (.encbit b) s).output = s.output ++ [BitVec.ofNat 8 (narrowedMin b s / 65536)] := by
  rw [← width_narrow b h] at hnarrow
  simp only [commandEffect, renormEncode_of_narrow hnarrow, extract_top_byte, narrow_min_toNat b h]
  obtain ⟨hmin, hmax⟩ := shiftInterval_bounds
    (u := countStep (outByte (BitVec.ofNat 8 (narrowedMin b s / 65536)) (correct b (narrow b (splitPoint s) s))))
    (narrow_min_toNat b h) (correct_narrow_max_toNat b h)
  exact ⟨hmin, hmax, rfl, rfl⟩

/-- Settles O30: the frame, the two cases of the width, and the two faults. -/
theorem encbitResult : Obligations.EncbitResult := by
  intro s b hclear
  refine ⟨fun hstate hpv hcode => ?_, fun hready henc => ?_, fun hstate hpv => ?_⟩
  · exact ⟨_, exec_of_legal (.encbit b) hclear (commandFault_encbit.2 ⟨hstate, hpv⟩), encbit_frame b s,
      encbit_of_wide hcode, encbit_of_narrow hcode⟩
  · exact exec_of_fault (.encbit b) hclear (by simp [commandFault, mayEncode, hready, henc]) (by decide)
  · exact exec_of_fault (.encbit b) hclear (by simp [commandFault, mayEncode_iff.2 hstate, hpv]) (by decide)

/-- Settles O35: the corrected `MAX` is above `MIN` by less than 256, so its top byte is that of `MIN` or the next one,
and the next one exactly where the low 16 bits wrap around. -/
theorem emittedByteIsTheCommonOrLowerTopByte : Obligations.EmittedByteIsTheCommonOrLowerTopByte := by
  intro s t b hclear hstate hpv hcode hexec hnarrow
  rw [exec_of_legal (.encbit b) hclear (commandFault_encbit.2 ⟨hstate, hpv⟩)] at hexec
  obtain rfl := Host.Outcome.next.inj hexec
  obtain ⟨-, hmax, -, houtput⟩ := encbit_of_narrow hcode hnarrow
  obtain ⟨horder, hbelow⟩ := correctedMax_bounds b hcode
  have hle := correctedMax_le_narrowedMax b s
  have hbyte : (BitVec.ofNat 8 (narrowedMin b s / 65536)).toNat = narrowedMin b s / 65536 := by
    rw [BitVec.toNat_ofNat]
    omega
  refine ⟨_, houtput, fun hopen => ?_, fun hcollapse => ⟨?_, ?_⟩⟩
  · rw [hbyte]
    omega
  · rw [hbyte]
    omega
  · rw [hmax, shiftedMax, if_pos hcollapse]

/-! `DECBIT` (R133). -/

theorem decodedBit_iff (s : State) :
    decodedBit s = true ↔ mid s.min.toNat s.max.toNat s.p ≤ s.val.toNat :=
  decide_eq_true_iff

theorem decbit_frame (s : State) :
    commandEffect .decbit s = { s with
      min := (commandEffect .decbit s).min, max := (commandEffect .decbit s).max,
      val := (commandEffect .decbit s).val, rcnt := (commandEffect .decbit s).rcnt,
      ipos := (commandEffect .decbit s).ipos, cstate := (commandEffect .decbit s).cstate,
      bit := decodedBit s, bv := true, pv := false } := by
  obtain ⟨lo, hi, v, n, i, c, he, -⟩ := decbit_writes s
  rw [he]

section

variable {s : State} {b : Bool}

/-- The part of `DECBIT` after the bit is known. -/
def decodeBit (b : Bool) (s : State) : State := renormDecode b (latchBit b (narrow b (splitPoint s) s))

theorem decbit_eq_decodeBit (s : State) : commandEffect .decbit s = decodeBit (decodedBit s) s := rfl

theorem width_latchBit_narrow (b : Bool) (h : codable s) :
    (latchBit b (narrow b (splitPoint s) s)).width = narrowedMax b s - narrowedMin b s := width_narrow b h

theorem decodeBit_of_wide (h : codable s) (hdec : s.cstate = .dec)
    (hwide : 256 ≤ narrowedMax b s - narrowedMin b s) :
    (decodeBit b s).min.toNat = narrowedMin b s ∧ (decodeBit b s).max.toNat = narrowedMax b s ∧
    (decodeBit b s).val = s.val ∧ (decodeBit b s).rcnt = s.rcnt ∧ (decodeBit b s).ipos = s.ipos ∧
    (decodeBit b s).cstate = .dec := by
  rw [← width_latchBit_narrow b h] at hwide
  rw [decodeBit, renormDecode_of_wide hwide]
  exact ⟨narrow_min_toNat b h, narrow_max_toNat b h, rfl, rfl, rfl, hdec⟩

theorem decodeBit_of_byte {v : Byte} (h : codable s) (hdec : s.cstate = .dec)
    (hnarrow : narrowedMax b s - narrowedMin b s < 256) (hv : s.input[s.ipos]? = some v) :
    (decodeBit b s).min.toNat = narrowedMin b s % 65536 * 256 ∧ (decodeBit b s).max.toNat = shiftedMax b s ∧
    (decodeBit b s).val.toNat = s.val.toNat % 65536 * 256 + v.toNat ∧ (decodeBit b s).rcnt = s.rcnt + 1 ∧
    (decodeBit b s).ipos = s.ipos + 1 ∧ (decodeBit b s).cstate = .dec := by
  rw [← width_latchBit_narrow b h] at hnarrow
  rw [decodeBit, renormDecode_of_byte hnarrow hv]
  obtain ⟨hmin, hmax⟩ := shiftInterval_bounds
    (u := foldByte v (countStep { correct b (latchBit b (narrow b (splitPoint s) s)) with ipos := s.ipos + 1 }))
    (narrow_min_toNat b h) (correct_narrow_max_toNat b h)
  exact ⟨hmin, hmax, foldByte_val_toNat _ v, rfl, rfl, hdec⟩

theorem decodeBit_of_end (h : codable s) (hnarrow : narrowedMax b s - narrowedMin b s < 256)
    (hv : s.input[s.ipos]? = none) :
    (decodeBit b s).min.toNat = narrowedMin b s ∧ (decodeBit b s).max.toNat = correctedMax b s ∧
    (decodeBit b s).val = s.val ∧ (decodeBit b s).rcnt = s.rcnt ∧ (decodeBit b s).ipos = s.ipos ∧
    (decodeBit b s).cstate = .ended := by
  rw [← width_latchBit_narrow b h] at hnarrow
  rw [decodeBit, renormDecode_of_end hnarrow hv]
  exact ⟨narrow_min_toNat b h, correct_narrow_max_toNat b h, rfl, rfl, rfl, rfl⟩

end

/-- Settles O31: the frame, the three cases of the width and the byte source, and the two faults. -/
theorem decbitResult : Obligations.DecbitResult := by
  intro s hclear
  refine ⟨fun hdec hpv hcode => ?_, fun hdec => ?_, fun hdec hpv => ?_⟩
  · refine ⟨_, decodedBit s, exec_of_legal .decbit hclear (commandFault_decbit.2 ⟨hdec, hpv⟩), decodedBit_iff s,
      decbit_frame s, ?_⟩
    rw [decbit_eq_decodeBit]
    exact ⟨decodeBit_of_wide hcode hdec, fun _ => decodeBit_of_byte hcode hdec, decodeBit_of_end hcode⟩
  · exact exec_of_fault .decbit hclear (by simp [commandFault, hdec]) (by decide)
  · exact exec_of_fault .decbit hclear (by simp [commandFault, hdec, hpv]) (by decide)

/-! `FINISH` (R134). -/

theorem commandFault_finish {s : State} : commandFault .finish s = .clear ↔ s.cstate = .ready ∨ s.cstate = .enc := by
  rw [← mayEncode_iff]
  simp only [commandFault]
  split_ifs <;> simp_all

/-- Settles O32: `MAX - 1` fits `MIN`, and the three bytes are those of the new `MIN`. -/
theorem finishResult : Obligations.FinishResult := by
  intro s hclear
  refine ⟨fun hstate hpos hceiling => ?_, fun hready henc => ?_⟩
  · have hmin : (BitVec.ofNat 24 (s.max.toNat - 1)).toNat = s.max.toNat - 1 := by
      rw [BitVec.toNat_ofNat]
      omega
    exact ⟨_, _, _, _, exec_of_legal .finish hclear (commandFault_finish.2 hstate), hmin,
      (toNat_bytes _).trans hmin, rfl⟩
  · exact exec_of_fault .finish hclear (by simp [commandFault, mayEncode, hready, henc]) (by decide)

/-! `SEED` (R135). -/

theorem drop_eq_cons {bytes : List Byte} {i : Nat} {v : Byte} (h : bytes[i]? = some v) :
    bytes.drop i = v :: bytes.drop (i + 1) := by
  obtain ⟨hi, rfl⟩ := List.getElem?_eq_some_iff.1 h
  exact List.drop_eq_getElem_cons hi

/-- With fewer than three bytes left no three can be taken. -/
theorem drop_ne_three {bytes : List Byte} {i : Nat} (h : bytes.length - i < 3) (b0 b1 b2 : Byte) (rest : List Byte) :
    bytes.drop i ≠ b0 :: b1 :: b2 :: rest := by
  intro hd
  have hlen := congrArg List.length hd
  simp only [List.length_drop, List.length_cons] at hlen
  omega

/-- Settles O33: the three bytes that are left head what `SEED` takes, or there are no three. -/
theorem seedResult : Obligations.SeedResult := by
  intro s hclear
  refine ⟨fun b0 b1 b2 hready h0 h1 h2 => ?_, fun hready hshort => ?_, fun hready => ?_⟩
  · have hdrop : s.input.drop s.ipos = b0 :: b1 :: b2 :: s.input.drop (s.ipos + 3) := by
      rw [drop_eq_cons h0, drop_eq_cons h1, drop_eq_cons h2]
    rw [exec_of_legal .seed hclear (commandFault_seed.2 hready), seed_of_three hdrop]
    exact ⟨_, rfl, toNat_of_three_bytes b0 b1 b2, rfl⟩
  · rw [exec_of_legal .seed hclear (commandFault_seed.2 hready), seed_of_short (drop_ne_three hshort)]
  · exact exec_of_fault .seed hclear (by simp [commandFault, hready]) (by decide)

end Sys2Proof.Proofs.CoderResult
end

section
/-! The system commands `CINIT` and `SETNB` and the host port (spec/42_system.md R150 to R152): what each command
leaves, the register map, and the steps that take no command word. -/

namespace Sys2Proof.Proofs.System

open Sys2Proof.Machine Sys2Proof.Laws Sys2Proof.Proofs.Effects Sys2Proof.Proofs.Units

/-! `CINIT` (R150). -/

/-- Every coder command is illegal in `FIN`, `ENDED` and `SEEDERR` (spec/41_coder.md R132 to R135). -/
theorem commandFault_of_stopped {i : Instr} {s : State}
    (hi : (∃ b, i = .encbit b) ∨ i = .decbit ∨ i = .finish ∨ i = .seed)
    (h : s.cstate = .fin ∨ s.cstate = .ended ∨ s.cstate = .seederr) : commandFault i s = .badCState := by
  have hencode : mayEncode s = false := by rcases h with h | h | h <;> simp [mayEncode, h]
  have hdec : s.cstate ≠ .dec := by rcases h with h | h | h <;> simp [h]
  have hready : s.cstate ≠ .ready := by rcases h with h | h | h <;> simp [h]
  rcases hi with ⟨b, rfl⟩ | rfl | rfl | rfl
  · exact if_pos hencode
  · exact if_pos hdec
  · exact if_pos hencode
  · exact if_pos hready

/-- Settles O13: `CINIT` is legal in every `CSTATE`; the other commands that write `CSTATE` are the coder's, and these
are illegal in a stopped coder. -/
theorem cinitResult : Obligations.CinitResult := by
  refine ⟨fun s hclear => exec_of_legal .cinit hclear rfl, fun i s t h hstopped => ?_⟩
  obtain ⟨-, -, -, -, -, -, -, hwriters, -⟩ := RegisterWriters.writersOfTheRegisters i s t h
  cases exec_cases h with
  | ignored => exact .inr rfl
  | faulted => exact .inr rfl
  | effect hlegal =>
    by_cases hkept : (commandEffect i s).cstate = s.cstate
    · exact .inr hkept
    · refine .inl ((hwriters hkept).resolve_right fun hcoder => ?_)
      rw [commandFault_of_stopped hcoder hstopped] at hlegal
      cases hlegal

/-! `SETNB` (R151). -/

/-- Settles O14: the budgets in range are the legal ones, and they fit into `NB`. -/
theorem setnbResult : Obligations.SetnbResult := by
  refine fun s n hclear => ⟨fun hpos hmax => ?_, Encoding.exec_setnb_of_out_of_range hclear⟩
  have hfits : (BitVec.ofNat 20 n).toNat = n := by
    rw [BitVec.toNat_ofNat]
    omega
  exact ⟨_, exec_of_legal (.setnb n) hclear (commandFault_setnb.2 ⟨hpos, hmax⟩), hfits, rfl⟩

/-! The register map and the host port (R152). -/

/-- Settles O10: each register fits into the 32 bits it is read as, and the map ends at number 7. -/
theorem registerMapValues : Obligations.RegisterMapValues := by
  intro s
  refine ⟨rfl, ⟨_, rfl, ?_⟩, ⟨_, rfl, ?_⟩, ⟨_, rfl, ?_⟩, rfl, ⟨_, rfl, ?_⟩, ⟨_, rfl, ?_⟩, ⟨_, rfl, ?_⟩,
    fun k => (readReg_eq_none_iff k s).2⟩
  all_goals exact BitVec.toNat_setWidth_of_le (by decide)

theorem hostRead_of_defined {k : Nat} {s : State} {v : BitVec 32} (h : readReg k s = some v) :
    hostRead k s = .next { s with replies := s.replies ++ [v] } := by
  simp only [hostRead, h]

theorem hostRead_of_undefined {k : Nat} (s : State) (h : 8 ≤ k) : hostRead k s = .refused (.reservedRegister k) := by
  simp only [hostRead, (readReg_eq_none_iff k s).2 h]

theorem step_of_pending_nil {s : State} (h : s.pending = []) : step s = .next s := by
  simp only [step, takeNext, h]

/-- Settles O7: a step takes the action presented first, and neither a read nor a fresh byte source is a command. -/
theorem stepTakesHostActions : Obligations.StepTakesHostActions := by
  refine fun s rest => ⟨step_of_pending_nil, fun k v hpending hread => ?_, fun bytes => Scope.step_of_pending_cons⟩
  rw [Scope.step_of_pending_cons hpending]
  exact hostRead_of_defined hread

/-- Every command word, legal or not, answers a next state (spec/60_exceptions.md R180, log entry 9). -/
theorem execWord_next (w : CommandWord) (s : State) : ∃ t, execWord w s = .next t := by
  unfold execWord
  split
  · exact exec_next _ s
  · exact ⟨_, rfl⟩

/-- A host action is taken, or it reads a register that is not defined. -/
theorem takeAction_next_or (a : HostAction) (s : State) :
    (∃ t, takeAction a s = .next t) ∨ ∃ k, a = .readReg k ∧ 8 ≤ k := by
  cases a with
  | command w => exact .inl (execWord_next w s)
  | readReg k =>
    cases hread : readReg k s with
    | none => exact .inr ⟨k, rfl, (readReg_eq_none_iff k s).1 hread⟩
    | some v => exact .inl ⟨_, hostRead_of_defined hread⟩
  | reset => exact .inl ⟨_, rfl⟩
  | supply bytes => exact .inl ⟨_, rfl⟩

theorem step_of_reserved_read {s : State} {k : Nat} {rest : List HostAction} (h : s.pending = .readReg k :: rest)
    (hk : 8 ≤ k) : step s = .refused (.reservedRegister k) := by
  rw [Scope.step_of_pending_cons h]
  exact hostRead_of_undefined _ hk

/-- A step answers a next state, or it refuses the read of a register that is not defined. -/
theorem step_next_or (s : State) :
    (∃ t, step s = .next t) ∨ ∃ k rest, s.pending = .readReg k :: rest ∧ 8 ≤ k := by
  cases hp : s.pending with
  | nil => exact .inl ⟨s, step_of_pending_nil hp⟩
  | cons a rest =>
    rcases takeAction_next_or a { s with pending := rest } with ⟨t, ht⟩ | ⟨k, rfl, hk⟩
    · exact .inl ⟨t, (Scope.step_of_pending_cons hp).trans ht⟩
    · exact .inr ⟨k, rest, rfl, hk⟩

/-- Settles O8: a step that answers no next state refuses a reserved read, and such a read is refused. -/
theorem stepRefusesOnlyReservedReads : Obligations.StepRefusesOnlyReservedReads := by
  intro s
  refine ⟨fun r hfault => ?_, fun r => ⟨fun hrefused => ?_, ?_⟩⟩
  · rcases step_next_or s with ⟨t, ht⟩ | ⟨k, rest, hp, hk⟩
    · cases ht.symm.trans hfault
    · cases (step_of_reserved_read hp hk).symm.trans hfault
  · rcases step_next_or s with ⟨t, ht⟩ | ⟨k, rest, hp, hk⟩
    · cases ht.symm.trans hrefused
    · cases (step_of_reserved_read hp hk).symm.trans hrefused
      exact ⟨k, rest, hp, hk, rfl⟩
  · rintro ⟨k, rest, hp, hk, rfl⟩
    exact step_of_reserved_read hp hk

end Sys2Proof.Proofs.System
end

section
/-! The commands that code a plain bit, and those that begin a stream (spec/30_encoding.md R97, spec/43_sequences.md
R160, R161): from a sound block with a valid graph they are legal, so each has its effect. -/

namespace Sys2Proof.Proofs.PlainBit

open Sys2Proof.Machine Sys2Proof.Safety Sys2Proof.Laws Sys2Proof.Proofs.Effects Sys2Proof.Proofs.Units
open Sys2Proof.Proofs.Soundness

/-- What the commands of a plain bit need of the block: it is sound, not faulted, and has a valid graph (R182). -/
structure Operational (s : State) : Prop where
  sound : Inv s
  clear : s.fcode = .clear
  graph : s.gv = true

/-- The effect of a command never writes `FCODE`. -/
theorem fcode_commandEffect (i : Instr) (s : State) : (commandEffect i s).fcode = s.fcode := by
  cases i with
  | cinit => rfl
  | setnb n => rfl
  | flush => rfl
  | predict => rfl
  | update =>
    obtain ⟨nf, cur, cn, he⟩ := update_writes s
    rw [he]
  | encbit b =>
    obtain ⟨lo, hi, n, out, he, -⟩ := encbit_writes b s
    rw [he]
  | decbit =>
    obtain ⟨lo, hi, v, n, i, c, he, -⟩ := decbit_writes s
    rw [he]
  | finish => rfl
  | seed => rcases seed_cases s with ⟨b0, b1, b2, rest, -, he⟩ | he <;> rw [he]

/-- A legal command that leaves the graph valid leaves the block operational. -/
theorem Operational.effect {i : Instr} {s : State} (h : Operational s) (hlegal : commandFault i s = .clear)
    (hgraph : (commandEffect i s).gv = true) : Operational (commandEffect i s) :=
  ⟨inv_commandEffect h.sound hlegal, (fcode_commandEffect i s).trans h.clear, hgraph⟩

/-! Each command of a plain bit. -/

theorem Operational.predict_legal {s : State} (h : Operational s) : commandFault .predict s = .clear := by
  have hg := h.sound.graph h.graph
  exact commandFault_predict.2 ⟨h.graph, implements_of_inUse hg.cursor.le hg.current⟩

theorem Operational.predict {s : State} (h : Operational s) : Operational (commandEffect .predict s) :=
  h.effect h.predict_legal h.graph

theorem Operational.encbit {b : Bool} {s : State} (h : Operational s)
    (hlegal : commandFault (.encbit b) s = .clear) : Operational (commandEffect (.encbit b) s) := by
  refine h.effect hlegal ?_
  obtain ⟨lo, hi, n, out, he, -⟩ := encbit_writes b s
  rw [he]
  exact h.graph

theorem Operational.decbit {s : State} (h : Operational s) (hlegal : commandFault .decbit s = .clear) :
    Operational (commandEffect .decbit s) := by
  refine h.effect hlegal ?_
  obtain ⟨lo, hi, v, n, i, c, he, -⟩ := decbit_writes s
  rw [he]
  exact h.graph

theorem bv_encbit (b : Bool) (s : State) : (commandEffect (.encbit b) s).bv = true := rfl

theorem bv_decbit (s : State) : (commandEffect .decbit s).bv = true := by
  obtain ⟨lo, hi, v, n, i, c, he, -⟩ := decbit_writes s
  rw [he]

theorem Operational.update_legal {s : State} (h : Operational s) (hbv : s.bv = true) :
    commandFault .update s = .clear :=
  UpdateResult.updateFault_of_updateLegal ⟨h.sound, h.clear, h.graph, hbv⟩

theorem Operational.update {s : State} (h : Operational s) (hbv : s.bv = true) :
    Operational (commandEffect .update s) := by
  refine h.effect (h.update_legal hbv) ?_
  obtain ⟨nf, cur, cn, he⟩ := update_writes s
  rw [he]
  exact h.graph

/-! The pseudo-instructions (R97). -/

/-- The state that `CBIT b` leaves. -/
def cbitEffect (b : Bool) (s : State) : State :=
  commandEffect .update (commandEffect (.encbit b) (commandEffect .predict s))

/-- `ENCBIT` is legal after `PREDICT`, which makes `P` valid. -/
theorem encbit_legal_after_predict (b : Bool) {s : State} (hmode : s.cstate = .ready ∨ s.cstate = .enc) :
    commandFault (.encbit b) (commandEffect .predict s) = .clear :=
  commandFault_encbit.2 ⟨hmode, rfl⟩

theorem Operational.cbit (b : Bool) {s : State} (h : Operational s) (hmode : s.cstate = .ready ∨ s.cstate = .enc) :
    Operational (cbitEffect b s) :=
  (h.predict.encbit (encbit_legal_after_predict b hmode)).update rfl

theorem runCommands_cbit (b : Bool) {s : State} (h : Operational s) (hmode : s.cstate = .ready ∨ s.cstate = .enc) :
    runCommands (pseudoCbit b) s = .next (cbitEffect b s) := by
  have hencode := encbit_legal_after_predict b hmode
  have hcoded := h.predict.encbit hencode
  simp only [pseudoCbit, runCommands_cons, runCommands_nil, exec_of_legal .predict h.clear h.predict_legal,
    exec_of_legal _ h.predict.clear hencode, exec_of_legal _ hcoded.clear (hcoded.update_legal rfl), andThen_next]
  rfl

/-- `DECBIT` is legal after `PREDICT`, which makes `P` valid. -/
theorem decbit_legal_after_predict {s : State} (hmode : s.cstate = .dec) :
    commandFault .decbit (commandEffect .predict s) = .clear :=
  commandFault_decbit.2 ⟨hmode, rfl⟩

theorem runCommands_predict_decbit {s : State} (h : Operational s) (hmode : s.cstate = .dec) :
    runCommands [.predict, .decbit] s = .next (commandEffect .decbit (commandEffect .predict s)) := by
  simp only [runCommands_cons, runCommands_nil, exec_of_legal .predict h.clear h.predict_legal,
    exec_of_legal _ h.predict.clear (decbit_legal_after_predict hmode), andThen_next]

/-- The state that `START` leaves. -/
def startEffect (s : State) : State := commandEffect .cinit (commandEffect .flush s)

@[simp] theorem startEffect_max (s : State) : (startEffect s).max = 0x1000000 := rfl

theorem runCommands_start {s : State} (h : s.fcode = .clear) : runCommands pseudoStart s = .next (startEffect s) := by
  have hflushed : (commandEffect .flush s).fcode = .clear := h
  simp only [pseudoStart, runCommands_cons, runCommands_nil, exec_of_legal .flush h rfl,
    exec_of_legal .cinit hflushed rfl, andThen_next]
  rfl

theorem operational_start {s : State} (hs : Inv s) (h : s.fcode = .clear) : Operational (startEffect s) :=
  ⟨inv_commandEffect (inv_commandEffect hs rfl) rfl, h, rfl⟩

theorem runCommands_append (is js : List Instr) (s : State) :
    runCommands (is ++ js) s = andThen (runCommands is s) (runCommands js) := by
  induction is generalizing s with
  | nil => rfl
  | cons i rest ih =>
    obtain ⟨t, ht⟩ := exec_next i s
    simp only [List.cons_append, runCommands_cons, ht, andThen_next, ih]

end Sys2Proof.Proofs.PlainBit
end

section
/-! The mirror of encoder and decoder (spec/43_sequences.md R163): each of the three steps of a plain bit keeps it,
because `PREDICT` and `UPDATE` do not see the coder, and the two coding commands narrow and shift alike. -/

namespace Sys2Proof.Proofs.Mirror

open Sys2Proof.Machine Sys2Proof.Safety Sys2Proof.Laws Sys2Proof.Proofs.Effects Sys2Proof.Proofs.Units
open Sys2Proof.Proofs.PlainBit

theorem operational_of_mirrored {e d : State} (he : Inv e) (hd : Inv d) (h : mirrored e d) :
    Operational e ∧ Operational d := by
  obtain ⟨-, -, -, -, -, -, -, hegv, hdgv, heclear, hdclear, -, -⟩ := h
  exact ⟨⟨he, heclear, hegv⟩, ⟨hd, hdclear, hdgv⟩⟩

theorem modes_of_mirrored {e d : State} (h : mirrored e d) :
    (e.cstate = .ready ∨ e.cstate = .enc) ∧ d.cstate = .dec := by
  obtain ⟨-, -, -, -, -, -, -, -, -, -, -, hemode, hdmode⟩ := h
  exact ⟨hemode, hdmode⟩

/-! `PREDICT` (R111). -/

theorem mirrored_predict {e d : State} (h : mirrored e d) :
    mirrored (commandEffect .predict e) (commandEffect .predict d) := h

theorem p_predict_of_mirrored {e d : State} (h : mirrored e d) :
    (commandEffect .predict e).p = (commandEffect .predict d).p := by
  obtain ⟨-, -, -, hnf, hcn, -⟩ := h
  have hnode : currentNode e = currentNode d := by rw [currentNode, State.node, hnf, hcn]; rfl
  simp only [commandEffect, hnode]

/-! `ENCBIT` and `DECBIT` (R132, R133). -/

/-- From the same bounds the two renormalizations lead to the same bounds and count alike, where the decoder has a byte
for each that the encoder emits. -/
theorem renorm_alike {b : Bool} {e d : State} (hmin : e.min = d.min) (hmax : e.max = d.max) (hrcnt : e.rcnt = d.rcnt)
    (hdec : (renormDecode b d).cstate = .dec) :
    (renormEncode b e).min = (renormDecode b d).min ∧ (renormEncode b e).max = (renormDecode b d).max ∧
      (renormEncode b e).rcnt = (renormDecode b d).rcnt := by
  have hwidth : e.width = d.width := by rw [State.width, hmin, hmax, State.width]
  rcases Nat.lt_or_ge d.width Config.floor with hw | hw
  · cases hv : d.input[d.ipos]? with
    | none =>
      rw [renormDecode_of_end hw hv] at hdec
      cases hdec
    | some v =>
      rw [renormEncode_of_narrow (hwidth ▸ hw), renormDecode_of_byte hw hv]
      simp [hmin, hmax, hrcnt]
  · rw [renormEncode_of_wide (hwidth ▸ hw), renormDecode_of_wide hw]
    exact ⟨hmin, hmax, hrcnt⟩

/-- With the same probability, `ENCBIT` of the bit that `DECBIT` decodes keeps the mirror. -/
theorem mirrored_encbit_decbit {e d : State} (h : mirrored e d) (hp : e.p = d.p)
    (hdec : (commandEffect .decbit d).cstate = .dec) :
    mirrored (commandEffect (.encbit (decodedBit d)) e) (commandEffect .decbit d) := by
  obtain ⟨hmin, hmax, hrcnt, hnf, hcn, hcur, hnb, hegv, hdgv, heclear, hdclear, -, -⟩ := h
  have hsplit : splitPoint e = splitPoint d := by rw [splitPoint, hmin, hmax, hp, splitPoint]
  have hbounds : (commandEffect (.encbit (decodedBit d)) e).min = (commandEffect .decbit d).min ∧
      (commandEffect (.encbit (decodedBit d)) e).max = (commandEffect .decbit d).max ∧
      (commandEffect (.encbit (decodedBit d)) e).rcnt = (commandEffect .decbit d).rcnt :=
    renorm_alike (e := narrow (decodedBit d) (splitPoint e) e)
      (d := latchBit (decodedBit d) (narrow (decodedBit d) (splitPoint d) d))
      (by simp [hmin, hsplit]) (by simp [hmax, hsplit]) hrcnt hdec
  obtain ⟨lo, hi, n, out, he, -⟩ := encbit_writes (decodedBit d) e
  obtain ⟨lo', hi', v, n', i, c, he', -⟩ := decbit_writes d
  rw [he, he'] at hbounds ⊢
  rw [he'] at hdec
  obtain ⟨hlo, hhi, hn⟩ := hbounds
  exact ⟨hlo, hhi, hn, hnf, hcn, hcur, hnb, hegv, hdgv, heclear, hdclear, .inr rfl, hdec⟩

theorem bit_decbit (s : State) : (commandEffect .decbit s).bit = decodedBit s := by
  obtain ⟨lo, hi, v, n, i, c, he, -⟩ := decbit_writes s
  rw [he]

/-! `UPDATE` (R112). -/

/-- The state `u` with all that `UPDATE` reads or writes, its flags apart, taken from `s`. -/
def withGraphOf (s u : State) : State := { u with nf := s.nf, cn := s.cn, cur := s.cur, nb := s.nb, bit := s.bit }

theorem withGraphOf_eq_self {s u : State} (hnf : u.nf = s.nf) (hcn : u.cn = s.cn) (hcur : u.cur = s.cur)
    (hnb : u.nb = s.nb) (hbit : u.bit = s.bit) : withGraphOf s u = u := by
  rw [withGraphOf, ← hnf, ← hcn, ← hcur, ← hnb, ← hbit]

theorem cloneStep_withGraphOf (s u : State) : cloneStep (withGraphOf s u) = withGraphOf (cloneStep s) u := by
  have hwants : wantsClone (withGraphOf s u) = wantsClone s := rfl
  have hroom : poolOverflows (withGraphOf s u) = poolOverflows s := rfl
  simp only [cloneStep, hwants, hroom]
  split_ifs <;> rfl

theorem enterNext_withGraphOf (n : NodeAddr) (b : Bool) (s u : State) :
    enterNext n b (withGraphOf s u) = { withGraphOf (enterNext n b s) u with bv := false, pv := false } := by
  rcases Nat.lt_or_ge s.cur.toNat s.nb.toNat with hroom | hfull
  · rw [enterNext_of_room n b hroom, enterNext_of_room (s := withGraphOf s u) n b hroom]
    rfl
  · rw [enterNext_of_full n b hfull, enterNext_of_full (s := withGraphOf s u) n b hfull]
    rfl

/-- `UPDATE` depends on the graph and the bit only, and writes nothing else but its flags. -/
theorem update_withGraphOf (s u : State) :
    commandEffect .update (withGraphOf s u) =
      { withGraphOf (commandEffect .update s) u with bv := false, pv := false } := by
  have hrecord : recordBit s.cn s.bit (withGraphOf (cloneStep s) u) =
    withGraphOf (recordBit s.cn s.bit (cloneStep s)) u := rfl
  calc commandEffect .update (withGraphOf s u)
      = enterNext s.cn s.bit (recordBit s.cn s.bit (cloneStep (withGraphOf s u))) := rfl
    _ = enterNext s.cn s.bit (withGraphOf (recordBit s.cn s.bit (cloneStep s)) u) := by
        rw [cloneStep_withGraphOf, hrecord]
    _ = _ := enterNext_withGraphOf s.cn s.bit _ u

/-- Where both sides observed the same bit, `UPDATE` on each keeps the mirror. -/
theorem mirrored_update {e d : State} (h : mirrored e d) (hbit : e.bit = d.bit) :
    mirrored (commandEffect .update e) (commandEffect .update d) := by
  obtain ⟨hmin, hmax, hrcnt, hnf, hcn, hcur, hnb, hegv, hdgv, heclear, hdclear, hemode, hdmode⟩ := h
  obtain ⟨nf, cur, cn, he⟩ := update_writes d
  rw [← withGraphOf_eq_self hnf hcn hcur hnb hbit, update_withGraphOf, he]
  exact ⟨hmin, hmax, hrcnt, rfl, rfl, rfl, rfl, hegv, hdgv, heclear, hdclear, hemode, hdmode⟩

theorem p_update (s : State) : (commandEffect .update s).p = s.p := by
  obtain ⟨nf, cur, cn, he⟩ := update_writes s
  rw [he]

theorem p_encbit (b : Bool) (s : State) : (commandEffect (.encbit b) s).p = s.p := by
  obtain ⟨lo, hi, n, out, he, -⟩ := encbit_writes b s
  rw [he]

theorem p_decbit (s : State) : (commandEffect .decbit s).p = s.p := by
  obtain ⟨lo, hi, v, n, i, c, he, -⟩ := decbit_writes s
  rw [he]

/-- Settles O49: the mirror is kept by `PREDICT` on both sides, by `ENCBIT` against `DECBIT`, and by `UPDATE` on both
sides; the commands are legal because both sides are sound. -/
theorem decoderMirrorsEncoder : Obligations.DecoderMirrorsEncoder := by
  intro e d d₁ he hd hmirror hrun hdec
  obtain ⟨hE, hD⟩ := operational_of_mirrored he hd hmirror
  obtain ⟨hemode, hdmode⟩ := modes_of_mirrored hmirror
  rw [runCommands_predict_decbit hD hdmode] at hrun
  obtain rfl := Host.Outcome.next.inj hrun
  have hp := p_predict_of_mirrored hmirror
  have hcoded := mirrored_encbit_decbit (mirrored_predict hmirror) hp hdec
  have hdecoded := hD.predict.decbit (decbit_legal_after_predict hdmode)
  rw [bit_decbit]
  refine ⟨_, _, runCommands_cbit _ hE hemode,
    exec_of_legal .update hdecoded.clear (hdecoded.update_legal (bv_decbit _)),
    mirrored_update hcoded (bit_decbit _).symm, ?_⟩
  rw [cbitEffect, p_update, p_encbit, p_update, p_decbit, hp]

end Sys2Proof.Proofs.Mirror
end

section
/-! The host sequences (spec/43_sequences.md): COMPRESS keeps the coder encoding and counts its bytes until `FINISH`
(R160), the empty input (R168), and the bits of a byte (R164). -/

namespace Sys2Proof.Proofs.HostSequences

open Sys2Proof.Machine Sys2Proof.Safety Sys2Proof.Laws Sys2Proof.Proofs.Effects Sys2Proof.Proofs.Units
open Sys2Proof.Proofs.PlainBit

/-! The bits of a plain byte (R68, R164). -/

/-- The fold of R164 over the leading bits of a byte gives the number that they write. -/
theorem foldl_take_bitsMsbFirst (v : Byte) {k : Nat} (hk : k ≤ 8) :
    ((bitsMsbFirst v).take k).foldl (fun n b => 2 * n + b.toNat) 0 = v.toNat / 2 ^ (8 - k) := by
  induction k with
  | zero => exact (Nat.div_eq_of_lt v.isLt).symm
  | succ k ih =>
    have hnext := BaseTopology.leadingBits_append_bit v (7 - k)
    rw [show 7 - k + 1 = 8 - k by omega] at hnext
    rw [BaseTopology.take_succ_bitsMsbFirst v hk, List.foldl_append, ih (by omega), show 8 - (k + 1) = 7 - k by omega]
    exact hnext

/-- Settles O50: the fold over the leading bits, at all eight. -/
theorem plainBitsReassembleTheByte : Obligations.PlainBitsReassembleTheByte := fun v =>
  ⟨(foldl_take_bitsMsbFirst v (Nat.le_refl 8)).trans (Nat.div_one _), rfl⟩

/-! COMPRESS (R160). -/

/-- The block inside COMPRESS, with `out` what `OUT` held before: it may encode, and `RCNT` counts the bytes appended
since (R25). -/
structure Encoding (out : List Byte) (s : State) : Prop where
  operational : Operational s
  mode : s.cstate = .ready ∨ s.cstate = .enc
  counted : ∃ bytes, s.output = out ++ bytes ∧ s.rcnt = BitVec.ofNat 32 bytes.length

theorem encoding_start {s : State} (hs : Inv s) (h : s.fcode = .clear) : Encoding s.output (startEffect s) :=
  ⟨operational_start hs h, .inl rfl, [], (List.append_nil _).symm, rfl⟩

theorem Encoding.flush {out : List Byte} {s : State} (h : Encoding out s) : Encoding out (commandEffect .flush s) :=
  ⟨h.operational.effect rfl rfl, h.mode, h.counted⟩

/-- `CBIT` appends and counts one byte or none. -/
theorem cbit_moves (b : Bool) (s : State) :
    (cbitEffect b s).cstate = .enc ∧
      (((cbitEffect b s).output = s.output ∧ (cbitEffect b s).rcnt = s.rcnt) ∨
        ∃ v, (cbitEffect b s).output = s.output ++ [v] ∧ (cbitEffect b s).rcnt = s.rcnt + 1) := by
  obtain ⟨lo, hi, n, out, hencode, hmoved⟩ := encbit_writes b (commandEffect .predict s)
  obtain ⟨nf, cur, cn, hupdate⟩ := update_writes (commandEffect (.encbit b) (commandEffect .predict s))
  rw [cbitEffect, hupdate, hencode]
  exact ⟨rfl, hmoved⟩

theorem Encoding.cbit {out : List Byte} {s : State} (b : Bool) (h : Encoding out s) :
    Encoding out (cbitEffect b s) := by
  obtain ⟨bytes, hout, hcount⟩ := h.counted
  obtain ⟨hmode, hmoved⟩ := cbit_moves b s
  refine ⟨h.operational.cbit b h.mode, .inr hmode, ?_⟩
  rcases hmoved with ⟨hkept, hn⟩ | ⟨v, happended, hn⟩
  · exact ⟨bytes, hkept.trans hout, hn.trans hcount⟩
  · refine ⟨bytes ++ [v], by rw [happended, hout, List.append_assoc], ?_⟩
    rw [hn, hcount, List.length_append, BitVec.ofNat_add]
    rfl

theorem Encoding.runs_cbits {out : List Byte} (bits : List Bool) {s : State} (h : Encoding out s) :
    ∃ t, runCommands (bits.flatMap pseudoCbit) s = .next t ∧ Encoding out t := by
  induction bits generalizing s with
  | nil => exact ⟨s, rfl, h⟩
  | cons b rest ih =>
    obtain ⟨t, hrun, ht⟩ := ih (h.cbit b)
    refine ⟨t, ?_, ht⟩
    rw [List.flatMap_cons, runCommands_append, runCommands_cbit b h.operational h.mode, andThen_next, hrun]

theorem Encoding.runs_periodicCheck {out : List Byte} {s : State} (h : Encoding out s) (cad : Config.Cadence)
    (count : Nat) (mark : BitVec 32) :
    ∃ m t, periodicCheck cad count mark s = .next (m, t) ∧ Encoding out t := by
  obtain ⟨m, t, hrun, rfl | hflush⟩ := periodicCheck_cases cad count mark s
  · exact ⟨m, _, hrun, h⟩
  · rw [exec_of_legal .flush h.operational.clear rfl] at hflush
    obtain rfl := Host.Outcome.next.inj hflush
    exact ⟨m, _, hrun, h.flush⟩

theorem Encoding.runs_compressBytes {out : List Byte} (cad : Config.Cadence) (plain : List Byte) {inb : Nat}
    {mark : BitVec 32} {s : State} (h : Encoding out s) :
    ∃ t, compressBytes cad plain inb mark s = .next t ∧ Encoding out t := by
  induction plain generalizing inb mark s with
  | nil => exact ⟨s, rfl, h⟩
  | cons v rest ih =>
    obtain ⟨u, hbyte, hu⟩ := h.runs_cbits (bitsMsbFirst v)
    obtain ⟨m, w, hcheck, hw⟩ := hu.runs_periodicCheck cad (inb + 1) mark
    obtain ⟨t, hrest, ht⟩ := ih (inb := inb + 1) (mark := m) hw
    refine ⟨t, ?_, ht⟩
    rw [compressBytes, pseudoCbyte, hbyte, andThen_next, hcheck, andThen_next, hrest]

theorem exec_finish_of_mode {s : State} (h : s.fcode = .clear) (hmode : s.cstate = .ready ∨ s.cstate = .enc) :
    exec .finish s = .next (commandEffect .finish s) :=
  exec_of_legal .finish h (CoderResult.commandFault_finish.2 hmode)

theorem codedStream_of_append {s t : State} {bytes : List Byte} (h : t.output = s.output ++ bytes) :
    codedStream s t = bytes := by
  rw [codedStream, h, List.drop_left]

/-- Settles O51: `START` makes the block encode, the byte loop keeps it so, and `FINISH` adds the sentinel. -/
theorem compressCompletes : Obligations.CompressCompletes := by
  intro cad plain s hs hclear
  obtain ⟨u, hloop, hu⟩ := (encoding_start hs hclear).runs_compressBytes cad plain (inb := 0) (mark := 0)
  obtain ⟨bytes, hout, hcount⟩ := hu.counted
  have hfinished : (commandEffect .finish u).output =
      s.output ++ (bytes ++ minBytes { u with min := BitVec.ofNat 24 (u.max.toNat - 1) }) := by
    rw [← List.append_assoc, ← hout]
    rfl
  refine ⟨commandEffect .finish u, ?_, hu.operational.clear, rfl, bytes.length, ?_, ?_, ?_⟩
  · rw [compress, runCommands_start hclear, andThen_next, hloop, andThen_next,
      exec_finish_of_mode hu.operational.clear hu.mode]
  · rw [codedStream_of_append hfinished, List.length_append]
    rfl
  · rw [codedStream_of_append hfinished, hfinished]
  · exact (congrArg BitVec.toNat hcount).symm

/-! The empty input (R168). -/

theorem compress_nil (cad : Config.Cadence) {s : State} (h : s.fcode = .clear) :
    compress cad [] s = .next (commandEffect .finish (startEffect s)) := by
  rw [compress, runCommands_start h, andThen_next, compressBytes, andThen_next]
  exact exec_finish_of_mode h (.inl rfl)

theorem minBytes_of_top {s : State} (h : s.min = 0xFFFFFF) : minBytes s = [0xFF, 0xFF, 0xFF] := by
  rw [minBytes, h]
  decide

/-- `FINISH` right after `START` writes the bytes of `MAX - 1 = FFFFFF`. -/
theorem output_finish_start (s : State) :
    (commandEffect .finish (startEffect s)).output = s.output ++ [0xFF, 0xFF, 0xFF] := by
  have hmin : BitVec.ofNat 24 ((startEffect s).max.toNat - 1) = 0xFFFFFF := by
    rw [startEffect_max]
    decide
  exact congrArg (s.output ++ ·) (minBytes_of_top hmin)

/-- `SEED` of the sentinel right after `START` loads `FFFFFF`, which is `MAX - 1`. -/
theorem seed_sentinel (s : State) :
    commandEffect .seed (startEffect (supplyInput [0xFF, 0xFF, 0xFF] s)) =
      { startEffect (supplyInput [0xFF, 0xFF, 0xFF] s) with val := 0xFFFFFF, ipos := 3, cstate := .dec } := by
  have hval : BitVec.ofNat 24 ((0xFF : Byte).toNat * 65536 + (0xFF : Byte).toNat * 256 + (0xFF : Byte).toNat) =
    0xFFFFFF := by decide
  rw [seed_of_three (b0 := 0xFF) (b1 := 0xFF) (b2 := 0xFF) (rest := []) rfl, hval]
  rfl

theorem runCommands_start_seed {s : State} (h : s.fcode = .clear) :
    runCommands (pseudoStart ++ [.seed]) s = .next (commandEffect .seed (startEffect s)) := by
  have hstarted : (startEffect s).fcode = .clear := h
  rw [runCommands_append, runCommands_start h, andThen_next, runCommands_cons,
    exec_of_legal .seed hstarted (commandFault_seed.2 rfl), andThen_next, runCommands_nil]

theorem decompressBytes_of_term (cad : Config.Cadence) {fuel : Nat} (hfuel : 1 ≤ fuel) (plain : List Byte) (outb : Nat)
    (mark : BitVec 32) {s : State} (h : term s = true) :
    decompressBytes cad fuel plain outb mark s = .next ⟨plain, .terminated, s⟩ := by
  obtain ⟨n, rfl⟩ := Nat.exists_eq_succ_of_ne_zero (Nat.one_le_iff_ne_zero.1 hfuel)
  rw [decompressBytes, if_pos h]

theorem decompress_sentinel (cad : Config.Cadence) {fuel : Nat} (hfuel : 1 ≤ fuel) {s : State} (h : s.fcode = .clear) :
    decompress cad fuel [0xFF, 0xFF, 0xFF] s =
      .next ⟨[], .terminated, commandEffect .seed (startEffect (supplyInput [0xFF, 0xFF, 0xFF] s))⟩ := by
  have hsupplied : (supplyInput [0xFF, 0xFF, 0xFF] s).fcode = .clear := h
  have hterm : term (commandEffect .seed (startEffect (supplyInput [0xFF, 0xFF, 0xFF] s))) = true := by
    rw [seed_sentinel]
    simp [term]
  have hseeded : (commandEffect .seed (startEffect (supplyInput [0xFF, 0xFF, 0xFF] s))).cstate ≠ .seederr := by
    rw [seed_sentinel]
    simp
  rw [decompress, runCommands_start_seed hsupplied, andThen_next, if_neg hseeded,
    decompressBytes_of_term cad hfuel [] 0 0 hterm]

/-- Settles O52: COMPRESS is `START` and `FINISH`, and after the seed the decoder stands at `TERM` at once. -/
theorem emptyInputIsTheSentinelAlone : Obligations.EmptyInputIsTheSentinelAlone := fun cad s h =>
  ⟨⟨_, compress_nil cad h, codedStream_of_append (output_finish_start s)⟩, fun _ hfuel =>
    ⟨_, decompress_sentinel cad hfuel h⟩⟩

end Sys2Proof.Proofs.HostSequences
end

section
/-! Faults and legality (spec/60_exceptions.md R180, R182): in a sound state the node addresses are implemented, so the
fault of a command is the one that the table gives, and each effect leaves `CSTATE` as the table says. -/

namespace Sys2Proof.Proofs.Legality

open Sys2Proof.Machine Sys2Proof.Safety Sys2Proof.Laws Sys2Proof.Proofs.Effects Sys2Proof.Proofs.Units
open Sys2Proof.Proofs.PlainBit

/-- Settles O38: a code that is not 0 was there before, and the command was ignored, or the command raised it. -/
theorem faultsArePrecise : Obligations.FaultsArePrecise := by
  intro i s t h hfaulted
  by_cases hclear : s.fcode = .clear
  · cases exec_cases h with
    | ignored => rfl
    | faulted => rfl
    | effect => exact absurd ((fcode_commandEffect i s).trans hclear) hfaulted
  · rw [exec_faulted i s hclear] at h
    obtain rfl := Host.Outcome.next.inj h
    rfl

/-! The code that a command raises (R182). -/

theorem mayEncode_eq_false_iff {s : State} : mayEncode s = false ↔ s.cstate ≠ .ready ∧ s.cstate ≠ .enc := by
  rw [← Bool.not_eq_true, mayEncode_iff, not_or]

/-- The address checks of `PREDICT` pass in a sound state with a valid graph (R43, R44). -/
theorem implements_cn {s : State} (h : Inv s) (hgv : s.gv = true) : s.implements s.cn.toNat = true :=
  implements_of_inUse (h.graph hgv).cursor.le (h.graph hgv).current

/-- The checks of `UPDATE` are those of its two flags in a sound state. -/
theorem updateFault_of_inv {s : State} (h : Inv s) (hclear : s.fcode = .clear) :
    updateFault s = if s.gv = false then .graphNotValid else if s.bv then .clear else .bitNotValid := by
  cases hgv : s.gv with
  | false => simp [updateFault, hgv]
  | true =>
    cases hbv : s.bv with
    | false => simp [updateFault, hgv, hbv]
    | true => simpa using UpdateResult.updateFault_of_updateLegal ⟨h, hclear, hgv, hbv⟩

/-- In a sound state a command raises the code of the table. -/
theorem commandFault_eq_legality (i : Instr) {s : State} (h : Inv s) (hclear : s.fcode = .clear) :
    commandFault i s = legality i s := by
  cases i with
  | cinit => rfl
  | setnb n => rfl
  | flush => rfl
  | predict =>
    cases hgv : s.gv with
    | false => simp [commandFault, legality, hgv]
    | true => simp [commandFault, legality, hgv, implements_cn h hgv]
  | update => exact updateFault_of_inv h hclear
  | encbit b => cases hpv : s.pv <;> simp [commandFault, legality, mayEncode_eq_false_iff, hpv]
  | decbit => cases hpv : s.pv <;> simp [commandFault, legality, hpv]
  | finish => simp only [commandFault, legality, mayEncode_eq_false_iff]
  | seed => rfl

/-! The coder state that a legal command leaves (R182). -/

/-- Renormalization of the decoder writes `CSTATE` only where the stream ends (R133). -/
theorem cstate_renormDecode (b : Bool) (s : State) :
    (renormDecode b s).cstate = s.cstate ∨ (renormDecode b s).cstate = .ended := by
  rcases Nat.lt_or_ge s.width Config.floor with hw | hw
  · cases hv : s.input[s.ipos]? with
    | none => exact .inr (by rw [renormDecode_of_end hw hv])
    | some v => exact .inl (by rw [renormDecode_of_byte hw hv]; rfl)
  · exact .inl (by rw [renormDecode_of_wide hw])

theorem endsIn_commandEffect {i : Instr} {s : State} (hlegal : commandFault i s = .clear) :
    endsIn i s (commandEffect i s) := by
  cases i with
  | cinit => rfl
  | setnb n => rfl
  | flush => rfl
  | predict => rfl
  | update =>
    obtain ⟨nf, cur, cn, he⟩ := update_writes s
    rw [he]
    rfl
  | encbit b => rfl
  | decbit =>
    obtain ⟨hdec, -⟩ := commandFault_decbit.1 hlegal
    exact (cstate_renormDecode _ _).imp_left fun hkept => hkept.trans hdec
  | finish => rfl
  | seed =>
    rcases seed_cases s with ⟨b0, b1, b2, rest, -, he⟩ | he
    · exact .inl (by rw [he])
    · exact .inr (by rw [he])

/-- A coder that encodes does not come to decode, nor the reverse (R182). -/
def KeepsDirection (s t : State) : Prop :=
  (s.cstate = .enc → t.cstate = .enc ∨ t.cstate = .fin) ∧ (s.cstate = .dec → t.cstate = .dec ∨ t.cstate = .ended)

theorem keepsDirection_of_cstate_eq {s t : State} (h : t.cstate = s.cstate) : KeepsDirection s t :=
  ⟨fun henc => .inl (h.trans henc), fun hdec => .inl (h.trans hdec)⟩

/-- Each coder command is legal on one side only, and ends there. -/
theorem keepsDirection_commandEffect {i : Instr} {s : State} (hlegal : commandFault i s = .clear) (hi : i ≠ .cinit) :
    KeepsDirection s (commandEffect i s) := by
  have hends := endsIn_commandEffect hlegal
  cases i with
  | cinit => exact absurd rfl hi
  | setnb n => exact keepsDirection_of_cstate_eq hends
  | flush => exact keepsDirection_of_cstate_eq hends
  | predict => exact keepsDirection_of_cstate_eq hends
  | update => exact keepsDirection_of_cstate_eq hends
  | encbit b =>
    obtain ⟨hmode, -⟩ := commandFault_encbit.1 hlegal
    exact ⟨fun _ => .inl hends, fun hdec => by simp [hdec] at hmode⟩
  | decbit =>
    obtain ⟨hmode, -⟩ := commandFault_decbit.1 hlegal
    exact ⟨fun henc => by simp [henc] at hmode, fun _ => hends⟩
  | finish =>
    have hmode := CoderResult.commandFault_finish.1 hlegal
    exact ⟨fun _ => .inr hends, fun hdec => by simp [hdec] at hmode⟩
  | seed =>
    have hmode := commandFault_seed.1 hlegal
    exact ⟨fun henc => by simp [henc] at hmode, fun hdec => by simp [hdec] at hmode⟩

/-- What a command answers in a sound state that is not faulted, in the words of the table. -/
theorem exec_follows_legality (i : Instr) {s : State} (hs : Inv s) (hclear : s.fcode = .clear) :
    ∃ t, exec i s = .next t ∧ t.fcode = legality i s ∧
      (legality i s ≠ .clear → t = { s with fcode := legality i s }) ∧ (legality i s = .clear → endsIn i s t) := by
  rw [← commandFault_eq_legality i hs hclear]
  by_cases hlegal : commandFault i s = .clear
  · exact ⟨_, exec_of_legal i hclear hlegal, by rw [fcode_commandEffect, hclear, hlegal],
      fun hfault => absurd hlegal hfault, fun _ => endsIn_commandEffect hlegal⟩
  · exact ⟨_, exec_of_fault i hclear rfl hlegal, rfl, fun _ => rfl, fun h => absurd h hlegal⟩

/-- Settles O37: the guard of a faulted block, the illegal words, the table, and the direction of the coder. -/
theorem legalityTable : Obligations.LegalityTable := by
  refine ⟨fun s hfaulted w => RegisterWriters.execWord_faulted w hfaulted, fun s hclear w hillegal => ?_,
    fun i s => exec_follows_legality i, fun i s t h hi => ?_⟩
  · have hw : ¬ legalWord w := fun hw => by
      obtain ⟨i, hi⟩ := Encoding.legalWord_iff_decode.1 hw
      exact hillegal i hi
    exact Encoding.execWord_of_not_legalWord hw hclear
  · cases exec_cases h with
    | ignored => exact keepsDirection_of_cstate_eq rfl
    | faulted => exact keepsDirection_of_cstate_eq rfl
    | effect hlegal => exact keepsDirection_commandEffect hlegal hi

end Sys2Proof.Proofs.Legality
end

section
/-! DECOMPRESS ends (spec/60_exceptions.md R188, spec/43_sequences.md R161): every `DECBIT` narrows the interval, takes a
coded byte or ends the stream, so the plain bits decoded are bounded by the width and the coded bytes left. -/

namespace Sys2Proof.Proofs.Decompression

open Sys2Proof.Machine Sys2Proof.Safety Sys2Proof.Laws Sys2Proof.Proofs.Effects Sys2Proof.Proofs.Units
open Sys2Proof.Proofs.PlainBit Sys2Proof.Proofs.CoderInterval Sys2Proof.Proofs.CoderResult
open Sys2Proof.Proofs.HostSequences

/-! What is left to decode. -/

/-- The measure that every decoded bit lowers: a full window for each coded byte left, and the width. -/
def roomLeft (s : State) : Nat := 2 ^ 24 * (s.input.length - s.ipos) + s.width

/-- A coder with a sound interval and a valid probability can code a bit. -/
theorem codable_of_decbit_legal {s : State} (h : Inv s) (hlegal : commandFault .decbit s = .clear) : codable s := by
  obtain ⟨hdec, hpv⟩ := commandFault_decbit.1 hlegal
  obtain ⟨-, hp0, hp1⟩ := h.probability hpv
  exact ⟨SoundInterval.wide_of_coding h.interval (.inr (.inr hdec)), h.interval.ceiling, hp0.le, hp1.le⟩

section

variable {s : State}

/-- Narrowing takes at least one value from the interval (R130). -/
theorem narrowed_width_lt (b : Bool) (h : codable s) : narrowedMax b s - narrowedMin b s < s.width := by
  obtain ⟨hlow, hhigh, -⟩ := splitPoint_inside h
  cases b with
  | true =>
    change s.max.toNat - splitPoint s < s.max.toNat - s.min.toNat
    omega
  | false =>
    change splitPoint s - s.min.toNat < s.max.toNat - s.min.toNat
    omega

theorem shiftedMax_le_top (b : Bool) (s : State) : shiftedMax b s ≤ 2 ^ 24 := by
  unfold shiftedMax
  split_ifs <;> omega

theorem input_decodeBit (b : Bool) (s : State) : (decodeBit b s).input = s.input := by
  obtain ⟨lo, hi, v, n, i, c, he, -⟩ := renormDecode_writes b (latchBit b (narrow b (splitPoint s) s))
  rw [decodeBit, he]
  rfl

/-- A decoded bit narrows the interval, opens it again for a coded byte, or ends the stream (R133, R188). -/
theorem decodeBit_ends_or_lowers_room (b : Bool) (h : codable s) (hdec : s.cstate = .dec) :
    (decodeBit b s).cstate = .ended ∨ (decodeBit b s).cstate = .dec ∧ roomLeft (decodeBit b s) < roomLeft s := by
  have hless := narrowed_width_lt b h
  rcases Nat.lt_or_ge (narrowedMax b s - narrowedMin b s) 256 with hnarrow | hwide
  · cases hv : s.input[s.ipos]? with
    | none =>
      obtain ⟨-, -, -, -, -, hended⟩ := decodeBit_of_end h hnarrow hv
      exact .inl hended
    | some v =>
      obtain ⟨hmin, hmax, -, -, hipos, hstate⟩ := decodeBit_of_byte h hdec hnarrow hv
      obtain ⟨hleft, -⟩ := List.getElem?_eq_some_iff.1 hv
      have htop := shiftedMax_le_top b s
      refine .inr ⟨hstate, ?_⟩
      rw [roomLeft, roomLeft, input_decodeBit, hipos, State.width, hmin, hmax]
      omega
  · obtain ⟨hmin, hmax, -, -, hipos, hstate⟩ := decodeBit_of_wide h hdec hwide
    refine .inr ⟨hstate, ?_⟩
    rw [roomLeft, roomLeft, input_decodeBit, hipos, State.width, hmin, hmax]
    omega

end

/-! The block inside DECOMPRESS. -/

/-- The block inside DECOMPRESS, with fewer than `bound` bits left to decode. -/
structure Decoding (bound : Nat) (s : State) : Prop where
  operational : Operational s
  mode : s.cstate = .dec
  room : roomLeft s < bound

theorem Decoding.mono {m n : Nat} {s : State} (h : Decoding m s) (hmn : m ≤ n) : Decoding n s :=
  ⟨h.operational, h.mode, h.room.trans_le hmn⟩

theorem Decoding.flush {n : Nat} {s : State} (h : Decoding n s) : Decoding n (commandEffect .flush s) :=
  ⟨h.operational.effect rfl rfl, h.mode, h.room⟩

theorem Decoding.update {n : Nat} {s : State} (h : Decoding n s) (hbv : s.bv = true) :
    Decoding n (commandEffect .update s) := by
  have hafter := h.operational.update hbv
  obtain ⟨nf, cur, cn, he⟩ := update_writes s
  rw [he] at hafter ⊢
  exact ⟨hafter, h.mode, h.room⟩

/-- `PREDICT` and `DECBIT` end the stream or use up room. -/
theorem Decoding.predict_decbit {n : Nat} {s : State} (h : Decoding n s) :
    (commandEffect .decbit (commandEffect .predict s)).cstate = .ended ∨
      Decoding (n - 1) (commandEffect .decbit (commandEffect .predict s)) := by
  have hlegal := decbit_legal_after_predict h.mode
  have hcode := codable_of_decbit_legal h.operational.predict.sound hlegal
  have hroom : roomLeft (commandEffect .predict s) = roomLeft s := rfl
  have hbound := h.room
  refine (decodeBit_ends_or_lowers_room (decodedBit _) hcode h.mode).imp_right ?_
  rintro ⟨hmode, hless⟩
  rw [← decbit_eq_decodeBit] at hmode hless
  exact ⟨h.operational.predict.decbit hlegal, hmode, by omega⟩

/-- The last `k` bits of a plain byte: the stream ends inside them, or each uses up room. -/
theorem Decoding.runs_decodeBits (k : Nat) {n : Nat} {v : Byte} {s : State} (h : Decoding n s) :
    (∃ t, decodeBits k v s = .next (none, t) ∧ t.fcode = .clear) ∨
      ∃ u t, decodeBits k v s = .next (some u, t) ∧ Decoding (n - k) t := by
  induction k generalizing n v s with
  | zero => exact .inr ⟨v, s, rfl, h⟩
  | succ k ih =>
    have hrun := runCommands_predict_decbit h.operational h.mode
    have hcoded := h.operational.predict.decbit (decbit_legal_after_predict h.mode)
    rcases h.predict_decbit with hended | hdecoding
    · exact .inl ⟨_, by rw [decodeBits, hrun, andThen_next, if_pos hended], hcoded.clear⟩
    · have hbv := bv_decbit (commandEffect .predict s)
      have hgoes : (commandEffect .decbit (commandEffect .predict s)).cstate ≠ .ended := by simp [hdecoding.mode]
      rw [decodeBits, hrun, andThen_next, if_neg hgoes, exec_of_legal _ hcoded.clear (hcoded.update_legal hbv),
        andThen_next, Nat.add_comm k 1, Nat.sub_add_eq]
      exact ih (hdecoding.update hbv)

/-- A periodic check leaves the block as it is or flushes it, so it keeps what both have (R162). -/
theorem periodicCheck_keeps {P : State → Prop} {s : State} (hclear : s.fcode = .clear) (hs : P s)
    (hflushed : P (commandEffect .flush s)) (cad : Config.Cadence) (count : Nat) (mark : BitVec 32) :
    ∃ m t, periodicCheck cad count mark s = .next (m, t) ∧ P t := by
  obtain ⟨m, t, hrun, rfl | hflush⟩ := periodicCheck_cases cad count mark s
  · exact ⟨m, _, hrun, hs⟩
  · obtain rfl := Host.Outcome.next.inj ((exec_of_legal .flush hclear rfl).symm.trans hflush)
    exact ⟨m, _, hrun, hflushed⟩

/-- The byte loop ends at `TERM` or at the end of the stream before it has used up its fuel. -/
theorem Decoding.runs_decompressBytes (cad : Config.Cadence) {fuel : Nat} {plain : List Byte} {outb : Nat}
    {mark : BitVec 32} {s : State} (h : Decoding fuel s) :
    ∃ d, decompressBytes cad fuel plain outb mark s = .next d ∧ d.state.fcode = .clear ∧
      (d.how = .terminated ∨ d.how = .ended) := by
  induction fuel generalizing plain outb mark s with
  | zero => exact absurd h.room (Nat.not_lt_zero _)
  | succ fuel ih =>
    by_cases hterm : term s = true
    · exact ⟨_, decompressBytes_of_term cad (Nat.succ_pos fuel) plain outb mark hterm, h.operational.clear, .inl rfl⟩
    · rcases h.runs_decodeBits 8 (v := 0) with ⟨t, hbits, hclear⟩ | ⟨u, t, hbits, ht⟩
      · exact ⟨_, by rw [decompressBytes, if_neg hterm, hbits, andThen_next], hclear, .inr rfl⟩
      · have hafter : Decoding fuel t := ht.mono (by omega)
        obtain ⟨m, w, hcheck, hw⟩ :=
          periodicCheck_keeps hafter.operational.clear hafter hafter.flush cad (outb + 1) mark
        rw [decompressBytes, if_neg hterm, hbits, andThen_next]
        simp only [hcheck, andThen_next]
        exact ih hw

/-! The seed (R186). -/

theorem inv_supplyInput (bytes : List Byte) {s : State} (h : Inv s) : Inv (supplyInput bytes s) :=
  Soundness.inv_of_same_predictor h rfl rfl rfl rfl rfl rfl id (Nat.zero_le _)
    (SoundInterval.intervalOk_congr h.interval rfl rfl rfl)

/-- The block after `START` and `SEED` on a byte source. -/
def seeded (coded : List Byte) (s : State) : State := commandEffect .seed (startEffect (supplyInput coded s))

theorem operational_seeded (coded : List Byte) {s : State} (hs : Inv s) (h : s.fcode = .clear) :
    Operational (seeded coded s) := by
  refine (operational_start (inv_supplyInput coded hs) h).effect (commandFault_seed.2 rfl) ?_
  rcases seed_cases (startEffect (supplyInput coded s)) with ⟨b0, b1, b2, rest, -, he⟩ | he <;> rw [he] <;> rfl

/-- Fewer than three coded bytes are a seed failure (R186). -/
theorem cstate_seeded_of_short {coded : List Byte} (s : State) (hshort : coded.length < 3) :
    (seeded coded s).cstate = .seederr := by
  rw [seeded, seed_of_short (drop_ne_three (bytes := coded) (i := 0) hshort)]

/-- From three coded bytes on the decoder starts with a full window and the bytes after the third. -/
theorem decoding_seeded {coded : List Byte} {s : State} (hs : Inv s) (h : s.fcode = .clear)
    (hlong : 3 ≤ coded.length) : Decoding (2 ^ 24 * (coded.length + 1)) (seeded coded s) := by
  have hoperational := operational_seeded coded hs h
  obtain ⟨b0, b1, b2, rest, rfl⟩ : ∃ b0 b1 b2 rest, coded = b0 :: b1 :: b2 :: rest := by
    match coded, hlong with
    | b0 :: b1 :: b2 :: rest, _ => exact ⟨b0, b1, b2, rest, rfl⟩
  have he : seeded (b0 :: b1 :: b2 :: rest) s = _ := seed_of_three (b0 := b0) (b1 := b1) (b2 := b2) (rest := rest) rfl
  have hroom : roomLeft (seeded (b0 :: b1 :: b2 :: rest) s) = 2 ^ 24 * rest.length + 2 ^ 24 := by
    rw [he]
    rfl
  refine ⟨hoperational, by rw [he], ?_⟩
  rw [hroom]
  simp only [List.length_cons]
  omega

/-- Settles O53: the seed fails on fewer than three bytes, and on others the byte loop has fuel for the room left. -/
theorem decompressEnds : Obligations.DecompressEnds := by
  intro cad coded fuel s hs hclear hfuel
  have hseed : runCommands (pseudoStart ++ [.seed]) (supplyInput coded s) = .next (seeded coded s) :=
    runCommands_start_seed hclear
  rw [decompress, hseed, andThen_next]
  rcases Nat.lt_or_ge coded.length 3 with hshort | hlong
  · rw [if_pos (cstate_seeded_of_short s hshort)]
    exact ⟨_, rfl, by simp, (operational_seeded coded hs hclear).clear, by simp [hshort]⟩
  · have hstart := decoding_seeded hs hclear hlong
    obtain ⟨d, hrun, hend, hhow⟩ := (hstart.mono hfuel).runs_decompressBytes cad (plain := []) (outb := 0) (mark := 0)
    have hfuelled : d.how ≠ .outOfFuel := by rcases hhow with hhow | hhow <;> simp [hhow]
    have hunfailed : d.how ≠ .seedFailure := by rcases hhow with hhow | hhow <;> simp [hhow]
    rw [if_neg (by simp [hstart.mode])]
    exact ⟨d, hrun, hfuelled, hend, iff_of_false hunfailed (Nat.not_lt.2 hlong)⟩

end Sys2Proof.Proofs.Decompression
end

section
/-! A trailing `FF` is lost (spec/70_reset_and_hazards.md R210, spec/90_conflicts.md C2). The nodes that the first byte
visits are as `FLUSH` left them, so each of its bits halves the window, which keeps `2^16` values: no byte moves. Each
bit 1 leaves `MAX` at the ceiling, and `FINISH` writes `MAX - 1` as it does for the empty input. -/

namespace Sys2Proof.Proofs.TrailingOnes

open Sys2Proof.Machine Sys2Proof.Safety Sys2Proof.Laws Sys2Proof.Proofs.Effects Sys2Proof.Proofs.Units
open Sys2Proof.Proofs.PlainBit Sys2Proof.Proofs.CoderInterval Sys2Proof.Proofs.CoderResult
open Sys2Proof.Proofs.HostSequences

/-! The predictor on the first byte after a flush (R110 to R112). -/

/-- `CN` is at level `k` of the tree of context 0, whose nodes from that level on are as `FLUSH` wrote them: heap index
`a` is at level `k` exactly when `2^k ≤ a < 2^(k+1)` (spec/20_memory.md R62). -/
structure FreshBelow (k : Nat) (s : State) : Prop where
  reached : 2 ^ k ≤ s.cn.toNat
  level : s.cn.toNat < 2 ^ (k + 1)
  unvisited : ∀ a, 2 ^ k ≤ a → a < 256 → nodeAt s.nf a = flushedNode a

theorem isBase_of_context_zero {a : Nat} (hpos : 1 ≤ a) (hlt : a < 256) : isBase a = true :=
  isBase_iff.2 (by omega)

theorem freshBelow_start (s : State) : FreshBelow 0 (startEffect s) :=
  ⟨Nat.le_refl 1, Nat.lt_succ_self 1, fun _ hpos hlt => nodeAt_filter_base s.nf (isBase_of_context_zero hpos hlt)⟩

section

variable {k : Nat} {s : State}

theorem FreshBelow.cn_lt (h : FreshBelow k s) (hk : k ≤ 7) : s.cn.toNat < 256 :=
  h.level.trans_le (Nat.pow_le_pow_right (n := 2) (by decide) (Nat.succ_le_succ hk))

theorem FreshBelow.cn_isBase (h : FreshBelow k s) (hk : k ≤ 7) : isBase s.cn.toNat = true :=
  isBase_of_context_zero (Nat.one_le_two_pow.trans h.reached) (h.cn_lt hk)

theorem FreshBelow.node_cn (h : FreshBelow k s) (hk : k ≤ 7) : s.node s.cn = flushedNode s.cn.toNat :=
  h.unvisited _ h.reached (h.cn_lt hk)

/-- A node with two equal weights predicts both bits alike. -/
theorem FreshBelow.p_predict (h : FreshBelow k s) (hk : k ≤ 7) : (commandEffect .predict s).p = 1 / 2 := by
  have hprob : Num.probability Num.wInit Num.wInit = 1 / 2 := by
    norm_num [Num.probability, Num.total, Num.wInit]
  simpa [commandEffect, currentNode, h.node_cn hk, flushedNode] using hprob

/-- The initial weight is below the threshold of the cloning rule. -/
theorem FreshBelow.not_updateClones (h : FreshBelow k s) (hk : k ≤ 7) : ¬ updateClones s := by
  have hused : updateUsed s = 1 / 5 := by
    simp [updateUsed, h.node_cn hk, flushedNode, Num.wInit]
  rintro ⟨hthreshold, -⟩
  rw [hused] at hthreshold
  norm_num at hthreshold

/-- Before the last level the edge of either bit leads one level down. -/
theorem FreshBelow.target_level (h : FreshBelow k s) (hk : k < 7) :
    2 ^ (k + 1) ≤ (updateTarget s).toNat ∧ (updateTarget s).toNat < 2 ^ (k + 2) := by
  have hbase := h.cn_isBase hk.le
  have htarget : (updateTarget s).toNat = baseEdge s.cn.toNat s.bit := by
    rw [← toNat_baseEdge s.bit hbase, updateTarget, h.node_cn hk.le]
    cases s.bit <;> rfl
  have hinner : s.cn.toNat < 2 ^ 7 := h.level.trans_le (Nat.pow_le_pow_right (by decide) hk)
  have hedge := BaseTopology.baseEdge_inner 0 s.bit (Nat.le_of_lt_succ hinner)
  have hbit := s.bit.toNat_le
  have hreached := h.reached
  have hlevel := h.level
  rw [Nat.zero_mul, Nat.zero_add, Nat.zero_add] at hedge
  rw [htarget, hedge, pow_succ _ (k + 1)]
  rw [pow_succ] at hlevel ⊢
  omega

/-- `UPDATE` writes the current node only and moves one level down. -/
theorem FreshBelow.update (h : FreshBelow k s) (hk : k < 7) (hs : Operational s) (hbv : s.bv = true) :
    FreshBelow (k + 1) (commandEffect .update s) := by
  obtain ⟨t, hrun, hframe, -, hother⟩ := UpdateResult.updateWithoutCloning s ⟨hs.sound, hs.clear, hs.graph, hbv⟩
    (h.not_updateClones hk.le)
  rw [exec_of_legal .update hs.clear (hs.update_legal hbv)] at hrun
  obtain rfl := Host.Outcome.next.inj hrun
  have hcn : (commandEffect .update s).cn = updateTarget s := by rw [hframe]
  obtain ⟨hreached, hlevel⟩ := h.target_level hk
  refine ⟨hcn ▸ hreached, hcn ▸ hlevel, fun a ha hlt => ?_⟩
  have hbelow : 2 ^ k ≤ a := (Nat.pow_le_pow_right (by decide) k.le_succ).trans ha
  rw [hother a (h.level.trans_le ha).ne', h.unvisited a hbelow hlt]

theorem FreshBelow.encbit (h : FreshBelow k s) (b : Bool) : FreshBelow k (commandEffect (.encbit b) s) := by
  rw [encbit_frame]
  exact ⟨h.reached, h.level, h.unvisited⟩

theorem FreshBelow.cbit (h : FreshBelow k s) (hk : k < 7) (b : Bool) (hs : Operational s)
    (hmode : s.cstate = .ready ∨ s.cstate = .enc) : FreshBelow (k + 1) (cbitEffect b s) := by
  have hpredicted : FreshBelow k (commandEffect .predict s) := ⟨h.reached, h.level, h.unvisited⟩
  exact (hpredicted.encbit b).update hk (hs.predict.encbit (encbit_legal_after_predict b hmode)) rfl

end

/-! The coder on a bit 1 (R130, R132). -/

/-- `floor(range / 2)`, by integer division. -/
theorem scale_half (n : Nat) : Num.scale n (1 / 2) = n / 2 := by
  have hfloor : ⌊(n : ℚ) * (1 / 2)⌋ = ((n / 2 : Nat) : Int) := by
    rw [mul_one_div]
    exact_mod_cast Rat.floor_natCast_div_natCast n 2
  rw [Num.scale, hfloor, Int.toNat_natCast]

/-- With three values or more an even probability splits the interval in the middle, and neither clamp acts. -/
theorem mid_half {lo hi : Nat} (h : lo + 3 ≤ hi) : mid lo hi (1 / 2) = lo + (hi - lo - 1) / 2 := by
  unfold mid
  simp only [scale_half]
  split_ifs <;> omega

/-- At even odds the upper half of 512 values or more is wide enough: `ENCBIT 1` keeps `MAX` and moves no byte. -/
theorem encbit_true_of_half {s : State} (hp : s.p = 1 / 2) (hwide : s.min.toNat + 512 ≤ s.max.toNat)
    (hceiling : s.max.toNat ≤ 2 ^ 24) :
    (commandEffect (.encbit true) s).min.toNat ≤ (s.min.toNat + s.max.toNat) / 2 ∧
      (commandEffect (.encbit true) s).max.toNat = s.max.toNat ∧
      (commandEffect (.encbit true) s).output = s.output := by
  have hcode : codable s := ⟨by omega, hceiling, by rw [hp]; norm_num, by rw [hp]; norm_num⟩
  have hsplit : narrowedMin true s = s.min.toNat + (s.max.toNat - s.min.toNat - 1) / 2 :=
    (congrArg (mid _ _) hp).trans (mid_half (by omega))
  have hkept : narrowedMax true s = s.max.toNat := rfl
  obtain ⟨hmin, hmax, -, hout⟩ := encbit_of_wide (b := true) hcode (by omega)
  exact ⟨by omega, hmax, hout⟩

/-! The byte `FF` (R210). -/

/-- The block may encode, its window reaches the ceiling, and `OUT` is `out`. -/
structure AtCeiling (out : List Byte) (s : State) : Prop where
  clear : s.fcode = .clear
  mode : s.cstate = .ready ∨ s.cstate = .enc
  ceiling : s.max.toNat = 2 ^ 24
  output : s.output = out

theorem AtCeiling.flush {out : List Byte} {s : State} (h : AtCeiling out s) : AtCeiling out (commandEffect .flush s) :=
  ⟨h.clear, h.mode, h.ceiling, h.output⟩

/-- `FINISH` with the window at the ceiling writes `MAX - 1 = FFFFFF`, whatever `MIN` is. -/
theorem AtCeiling.output_finish {out : List Byte} {s : State} (h : AtCeiling out s) :
    (commandEffect .finish s).output = out ++ [0xFF, 0xFF, 0xFF] := by
  have hmin : BitVec.ofNat 24 (s.max.toNat - 1) = 0xFFFFFF := by
    rw [h.ceiling]
    decide
  calc (commandEffect .finish s).output
      = s.output ++ minBytes { s with min := BitVec.ofNat 24 (s.max.toNat - 1) } := rfl
    _ = out ++ [0xFF, 0xFF, 0xFF] := by rw [h.output, minBytes_of_top hmin]

/-- The block inside COMPRESS after the first `k` bits of the first byte, all of them 1. -/
structure OnesCoded (out : List Byte) (k : Nat) (s : State) : Prop where
  operational : Operational s
  top : AtCeiling out s
  room : s.min.toNat + 2 ^ (24 - k) ≤ 2 ^ 24
  fresh : k ≤ 7 → FreshBelow k s

theorem onesCoded_start {s : State} (hs : Inv s) (h : s.fcode = .clear) : OnesCoded s.output 0 (startEffect s) := by
  have hmin : (startEffect s).min.toNat = 0 := rfl
  have hmax : (startEffect s).max.toNat = 2 ^ 24 := rfl
  exact ⟨operational_start hs h, ⟨h, .inl rfl, hmax, rfl⟩, by simp [hmin], fun _ => freshBelow_start s⟩

theorem OnesCoded.cbit {out : List Byte} {k : Nat} {s : State} (h : OnesCoded out k s) (hk : k ≤ 7) :
    OnesCoded out (k + 1) (cbitEffect true s) := by
  have hafter := h.operational.cbit true h.top.mode
  have hroom := h.room
  have hceiling := h.top.ceiling
  have hhalf : 2 ^ (24 - k) = 2 * 2 ^ (24 - (k + 1)) := by
    rw [← pow_succ', show 24 - (k + 1) + 1 = 24 - k by omega]
  have hlarge : 2 ^ 16 ≤ 2 ^ (24 - (k + 1)) := Nat.pow_le_pow_right (by decide) (by omega)
  obtain ⟨hmin, hmax, hout⟩ := encbit_true_of_half (s := commandEffect .predict s) ((h.fresh hk).p_predict hk)
    (show s.min.toNat + 512 ≤ s.max.toNat by omega) hceiling.le
  have hfresh (hk' : k + 1 ≤ 7) : FreshBelow (k + 1) (cbitEffect true s) :=
    (h.fresh hk).cbit hk' true h.operational h.top.mode
  obtain ⟨hcoding, -⟩ := cbit_moves true s
  obtain ⟨nf, cur, cn, hupdate⟩ := update_writes (commandEffect (.encbit true) (commandEffect .predict s))
  have hbounds : (cbitEffect true s).min.toNat ≤ (s.min.toNat + s.max.toNat) / 2 ∧
      (cbitEffect true s).max.toNat = s.max.toNat ∧ (cbitEffect true s).output = s.output := by
    rw [cbitEffect, hupdate]
    exact ⟨hmin, hmax, hout⟩
  obtain ⟨hlow, hhigh, hkept⟩ := hbounds
  exact ⟨hafter, ⟨hafter.clear, .inr hcoding, hhigh.trans hceiling, hkept.trans h.top.output⟩, by omega, hfresh⟩

theorem OnesCoded.runs_cbits {out : List Byte} (n : Nat) {k : Nat} {s : State} (h : OnesCoded out k s)
    (hn : k + n ≤ 8) :
    ∃ t, runCommands ((List.replicate n true).flatMap pseudoCbit) s = .next t ∧ OnesCoded out (k + n) t := by
  induction n generalizing k s with
  | zero => exact ⟨s, rfl, h⟩
  | succ n ih =>
    obtain ⟨t, hrun, ht⟩ := ih (h.cbit (by omega)) (by omega)
    refine ⟨t, ?_, by rwa [Nat.add_right_comm] at ht⟩
    rw [List.replicate_succ, List.flatMap_cons, runCommands_append, runCommands_cbit true h.operational h.top.mode,
      andThen_next, hrun]

theorem bitsMsbFirst_FF : bitsMsbFirst 0xFF = List.replicate 8 true := by decide

/-- From every sound state COMPRESS of the one byte `FF` is the stream of the empty input. -/
theorem compress_FF (cad : Config.Cadence) {s : State} (hs : Inv s) (h : s.fcode = .clear) :
    ∃ t, compress cad [0xFF] s = .next t ∧ codedStream s t = [0xFF, 0xFF, 0xFF] := by
  obtain ⟨u, hbyte, hu⟩ := (onesCoded_start hs h).runs_cbits 8 (Nat.le_refl 8)
  obtain ⟨m, w, hcheck, hw⟩ := Decompression.periodicCheck_keeps hu.top.clear hu.top hu.top.flush cad 1 0
  refine ⟨commandEffect .finish w, ?_, codedStream_of_append hw.output_finish⟩
  rw [compress, runCommands_start h, andThen_next, compressBytes, pseudoCbyte, bitsMsbFirst_FF, hbyte, andThen_next,
    hcheck, andThen_next, compressBytes, andThen_next, exec_finish_of_mode hw.clear hw.mode]

/-- Settles O54: the stream of `FF` is the sentinel alone, at which the decoder stands at `TERM` after the seed. -/
theorem trailingFFIsLost : Obligations.TrailingFFIsLost := by
  obtain ⟨t, hrun, hstream⟩ := compress_FF Config.Cadence.reference Soundness.resetIsSound rfl
  refine ⟨t, hrun, hstream, fun fuel hfuel => ?_⟩
  rw [hstream]
  exact ⟨_, decompress_sentinel Config.Cadence.reference hfuel rfl⟩

end Sys2Proof.Proofs.TrailingOnes
end
